-- ==== Sys2Proof/Word.lean ====
section
/-! DEFINITION. The word types: a 32-bit word (command words, GEOM, STATE, response data) and a byte of a bank. -/

namespace Sys2Proof

/-- A command word, GEOM, STATE and the DATA of a response are 32 bits wide (00_scope.md R6). -/
abbrev Word := BitVec 32

/-- One byte of a bank (10_state.md R27). -/
abbrev Byte := BitVec 8

end Sys2Proof
end

