-- ==== Sys2Proof/Syntax.lean ====
section
/-! DEFINITION. The commands of the block as syntax: one constructor per row of spec/opcode_table.json
(30_encoding.md R49), with the operands its format carries at their widths (R50, R51). -/

namespace Sys2Proof

/-- The S bit of RDCH and RDB (30_encoding.md R50): which role of bank the command reads. -/
inductive BankSel where
  | display
  | write
  deriving DecidableEq, Repr

/-- A command. Operands stand in the order of the assembler syntax (30_encoding.md R59). -/
inductive Instr where
  /-- NOP (40_system.md R65). -/
  | nop
  /-- CONFIG side, count, size (40_system.md R66): the three raw bytes of a geometry. -/
  | config (side count size : BitVec 8)
  /-- RDREG (40_system.md R67): REG 0 STATE, 1 GEOM, 2 BUFSIZE. -/
  | rdreg (reg : BitVec 2)
  /-- RDCH, RDCH.W x, y, z, ch (41_decode.md R74). -/
  | rdch (sel : BankSel) (x y z : BitVec 3) (ch : BitVec 2)
  /-- GCB x, y, z, ch (41_decode.md R75). -/
  | gcb (x y z : BitVec 3) (ch : BitVec 2)
  /-- GCS x, y, z, ch (41_decode.md R76). -/
  | gcs (x y z : BitVec 3) (ch : BitVec 2)
  /-- GVB x, y, z (41_decode.md R77). -/
  | gvb (x y z : BitVec 3)
  /-- GVS x, y, z (41_decode.md R78). -/
  | gvs (x y z : BitVec 3)
  /-- WRCH x, y, z, ch, value (42_encode.md R82). -/
  | wrch (x y z : BitVec 3) (ch : BitVec 2) (value : BitVec 8)
  /-- RDB, RDB.W idx (41_decode.md R79). -/
  | rdb (sel : BankSel) (idx : BitVec 11)
  /-- APPB byte (43_assembly.md R84). -/
  | appb (byte : BitVec 8)
  /-- APPR value, run (43_assembly.md R85). -/
  | appr (byte run : BitVec 8)
  /-- COMMIT (43_assembly.md R87). -/
  | commit
  /-- DISCARD (43_assembly.md R88). -/
  | discard
  /-- DISPLAY (44_swap.md R90). -/
  | display
  deriving DecidableEq, Repr

end Sys2Proof
end

