-- ==== Sys2Proof/WellFormed.lean ====
section
/-! DEFINITION. Which commands are legal terms. The widths of the operands are in their types; what is left is the one
encodable operand value that names no register. -/

namespace Sys2Proof

/-- A command is well formed when its words are legal: RDREG with REG = 3 is illegal (30_encoding.md R55). An operand
outside the geometry is no encoding error (R56). -/
def Instr.wf : Instr → Bool
  | .rdreg reg => reg != 3
  | .nop => true
  | .config _ _ _ => true
  | .rdch _ _ _ _ _ => true
  | .gcb _ _ _ _ => true
  | .gcs _ _ _ _ => true
  | .gvb _ _ _ => true
  | .gvs _ _ _ => true
  | .wrch _ _ _ _ _ => true
  | .rdb _ _ => true
  | .appb _ => true
  | .appr _ _ => true
  | .commit => true
  | .discard => true
  | .display => true

end Sys2Proof
end

