-- ==== Sys2Proof/Decode.lean ====
section
/-! DEFINITION. Decoding a command word and encoding a command (30_encoding.md R48-R57, R59). The decoder is total on
every word and rejects by name; the encoder is written from the assembler's table of words (R59). -/

namespace Sys2Proof

/-- Why a word is illegal. Every one of them is the one fault ILLEGAL (30_encoding.md R57). -/
inductive IllegalWord where
  /-- OP = 0xF (30_encoding.md R54). -/
  | reservedOpcode
  /-- A reserved or must-be-zero bit is set (30_encoding.md R53). -/
  | reservedBits
  /-- RDREG with REG = 3 (30_encoding.md R55). -/
  | noSuchRegister
  deriving DecidableEq, Repr

/-- The commands the opcode map selects (30_encoding.md R49). -/
inductive Op where
  | nop | config | rdreg | rdch | gcb | gcs | gvb | gvs | wrch | rdb | appb | appr | commit | discard | display
  deriving DecidableEq, Repr

/-- The opcode map (30_encoding.md R49): the command an OP value selects; 0xF selects none (R54). -/
def Op.ofCode : Nat → Option Op
  | 0x0 => some .nop
  | 0x1 => some .config
  | 0x2 => some .rdreg
  | 0x3 => some .rdch
  | 0x4 => some .gcb
  | 0x5 => some .gcs
  | 0x6 => some .gvb
  | 0x7 => some .gvs
  | 0x8 => some .wrch
  | 0x9 => some .rdb
  | 0xA => some .appb
  | 0xB => some .appr
  | 0xC => some .commit
  | 0xD => some .discard
  | 0xE => some .display
  | _ => none

/-- The mask of a command's row of the opcode table (30_encoding.md R53): the bits its format fixes. -/
def Op.mask : Op → Word
  | .nop => 0xFFFFFFFF
  | .config => 0xFF000000
  | .rdreg => 0xFFFFFFFC
  | .rdch => 0xF7FFF800
  | .gcb => 0xFFFFF800
  | .gcs => 0xFFFFF800
  | .gvb => 0xFFFFFE00
  | .gvs => 0xFFFFFE00
  | .wrch => 0xFF00F800
  | .rdb => 0xF7FFF800
  | .appb => 0xFFFFFF00
  | .appr => 0xFFFF0000
  | .commit => 0xFFFFFFFF
  | .discard => 0xFFFFFFFF
  | .display => 0xFFFFFFFF

/-- The match of a command's row of the opcode table (30_encoding.md R53): what the fixed bits are. -/
def Op.pattern : Op → Word
  | .nop => 0x00000000
  | .config => 0x10000000
  | .rdreg => 0x20000000
  | .rdch => 0x30000000
  | .gcb => 0x40000000
  | .gcs => 0x50000000
  | .gvb => 0x60000000
  | .gvs => 0x70000000
  | .wrch => 0x80000000
  | .rdb => 0x90000000
  | .appb => 0xA0000000
  | .appr => 0xB0000000
  | .commit => 0xC0000000
  | .discard => 0xD0000000
  | .display => 0xE0000000

/-- The row a command belongs to. -/
def Instr.op : Instr → Op
  | .nop => .nop
  | .config _ _ _ => .config
  | .rdreg _ => .rdreg
  | .rdch _ _ _ _ _ => .rdch
  | .gcb _ _ _ _ => .gcb
  | .gcs _ _ _ _ => .gcs
  | .gvb _ _ _ => .gvb
  | .gvs _ _ _ => .gvs
  | .wrch _ _ _ _ _ => .wrch
  | .rdb _ _ => .rdb
  | .appb _ => .appb
  | .appr _ _ => .appr
  | .commit => .commit
  | .discard => .discard
  | .display => .display

/-! The operand fields of a word (30_encoding.md R50, R51). -/

def fieldOP (w : Word) : BitVec 4 := w.extractLsb' 28 4
def fieldX (w : Word) : BitVec 3 := w.extractLsb' 0 3
def fieldY (w : Word) : BitVec 3 := w.extractLsb' 3 3
def fieldZ (w : Word) : BitVec 3 := w.extractLsb' 6 3
def fieldCH (w : Word) : BitVec 2 := w.extractLsb' 9 2
def fieldVAL (w : Word) : BitVec 8 := w.extractLsb' 16 8
def fieldCSIZE (w : Word) : BitVec 8 := w.extractLsb' 16 8
def fieldCCOUNT (w : Word) : BitVec 8 := w.extractLsb' 8 8
def fieldCSIDE (w : Word) : BitVec 8 := w.extractLsb' 0 8
def fieldIDX (w : Word) : BitVec 11 := w.extractLsb' 0 11
def fieldRUN (w : Word) : BitVec 8 := w.extractLsb' 8 8
def fieldBYTE (w : Word) : BitVec 8 := w.extractLsb' 0 8
def fieldREG (w : Word) : BitVec 2 := w.extractLsb' 0 2

/-- S = w[27]: 0 = display bank, 1 = write bank (30_encoding.md R50, R51). -/
def fieldS (w : Word) : BankSel := if w.getLsbD 27 then .write else .display

/-- The fields of a word by the format of its command (30_encoding.md R50, R51, last line of R57). -/
def Op.read (w : Word) : Op → Instr
  | .nop => .nop
  | .config => .config (fieldCSIDE w) (fieldCCOUNT w) (fieldCSIZE w)
  | .rdreg => .rdreg (fieldREG w)
  | .rdch => .rdch (fieldS w) (fieldX w) (fieldY w) (fieldZ w) (fieldCH w)
  | .gcb => .gcb (fieldX w) (fieldY w) (fieldZ w) (fieldCH w)
  | .gcs => .gcs (fieldX w) (fieldY w) (fieldZ w) (fieldCH w)
  | .gvb => .gvb (fieldX w) (fieldY w) (fieldZ w)
  | .gvs => .gvs (fieldX w) (fieldY w) (fieldZ w)
  | .wrch => .wrch (fieldX w) (fieldY w) (fieldZ w) (fieldCH w) (fieldVAL w)
  | .rdb => .rdb (fieldS w) (fieldIDX w)
  | .appb => .appb (fieldBYTE w)
  | .appr => .appr (fieldBYTE w) (fieldRUN w)
  | .commit => .commit
  | .discard => .discard
  | .display => .display

/-- Decoding a word, the checks in the order of 30_encoding.md R57. -/
def decode (w : Word) : Except IllegalWord Instr :=
  match Op.ofCode (fieldOP w).toNat with
  | none => .error .reservedOpcode
  | some op =>
    if w &&& op.mask ≠ op.pattern then .error .reservedBits
    else if op = .rdreg ∧ fieldREG w = 3 then .error .noSuchRegister
    else .ok (op.read w)

/-! The encoder (30_encoding.md R59): each operand shifted to its place and joined to the opcode. -/

/-- `v << lo` in a word. -/
def place {n : Nat} (v : BitVec n) (lo : Nat) : Word := v.setWidth 32 <<< lo

/-- The S bit of a bank select. -/
def BankSel.bit : BankSel → BitVec 1
  | .display => 0
  | .write => 1

/-- `z << 6 | y << 3 | x`. -/
def placeVoxel (x y z : BitVec 3) : Word := place z 6 ||| place y 3 ||| place x 0

/-- The word of a command (30_encoding.md R59). -/
def encode : Instr → Word
  | .nop => place (0x0#4) 28
  | .config side count size => place (0x1#4) 28 ||| place size 16 ||| place count 8 ||| place side 0
  | .rdreg reg => place (0x2#4) 28 ||| place reg 0
  | .rdch sel x y z ch => place (0x3#4) 28 ||| place sel.bit 27 ||| place ch 9 ||| placeVoxel x y z
  | .gcb x y z ch => place (0x4#4) 28 ||| place ch 9 ||| placeVoxel x y z
  | .gcs x y z ch => place (0x5#4) 28 ||| place ch 9 ||| placeVoxel x y z
  | .gvb x y z => place (0x6#4) 28 ||| placeVoxel x y z
  | .gvs x y z => place (0x7#4) 28 ||| placeVoxel x y z
  | .wrch x y z ch value => place (0x8#4) 28 ||| place value 16 ||| place ch 9 ||| placeVoxel x y z
  | .rdb sel idx => place (0x9#4) 28 ||| place sel.bit 27 ||| place idx 0
  | .appb byte => place (0xA#4) 28 ||| place byte 0
  | .appr byte run => place (0xB#4) 28 ||| place run 8 ||| place byte 0
  | .commit => place (0xC#4) 28
  | .discard => place (0xD#4) 28
  | .display => place (0xE#4) 28

/-- A command word as an opcode-table row numbers its bits. The port takes whole 32-bit words with no byte order
(20_memory.md R46), so the row's bit i is bit i of the word; a longer word does not exist (30_encoding.md R48). -/
def tableWord (nbits w : Nat) : Option Word :=
  if nbits ≤ 32 then some (BitVec.ofNat 32 (w % 2 ^ nbits)) else none

/-- The command the decoder reads from an opcode-table word of `nbits` bits, the bits above them 0. -/
def decodeTableWord (nbits w : Nat) : Option Instr :=
  match tableWord nbits w with
  | none => none
  | some word =>
    match decode word with
    | .ok i => some i
    | .error _ => none

end Sys2Proof
end

