-- ==== Sys2Proof/Config.lean ====
section
/-! DEFINITION. What the spec fixes for this block (00_scope.md R6), its parameter BIT_ORDER, and the one free value:
the reset draw of the banks. -/

namespace Sys2Proof.Config

/-- BANK_BYTES (00_scope.md R6): the bytes of one bank, the largest bufferSize. -/
def bankBytes : Nat := 1536

/-- CUBE_SIDE_MIN, CUBE_SIDE_MAX, CHANNEL_COUNT_MIN, CHANNEL_COUNT_MAX (00_scope.md R6). -/
def cubeSideMin : Nat := 1
def cubeSideMax : Nat := 8
def channelCountMin : Nat := 1
def channelCountMax : Nat := 3

/-- CHANNEL_SIZES (00_scope.md R6), in bits. -/
def channelSizes : List Nat := [1, 2, 4, 8]

/-- BIT_ORDER (00_scope.md R6, 20_memory.md R37): which end of a byte bit offset 0 stands at. -/
inductive BitOrder where
  | lsbFirst
  | msbFirst
  deriving DecidableEq, Repr

/-- The value this hardware takes for BIT_ORDER (00_scope.md R6, decision D11). -/
def defaultBitOrder : BitOrder := .lsbFirst

/-- RESET_BANK_FILL (00_scope.md R6, 10_state.md R32, decision D25): the arbitrary value that byte `index` of bank
`bank` (0 or 1) holds from the reset numbered `draw` until a command writes it. A free value: it has no body, so no
proof can use what it is (assumption log 1). -/
opaque bankDraw (draw bank index : Nat) : Byte

end Sys2Proof.Config
end

