-- ==== Sys2Proof/Machine/State.lean ====
section
/-! DEFINITION. The state of the block as plain data (10_state.md R13), its ports (30_encoding.md R52, R62), the reasons
a step can stop, and the state after reset (10_state.md R32). -/

namespace Sys2Proof.Machine

/-- The seven fault codes (60_exceptions.md R94). -/
inductive FaultCode where
  | illegal | nocfg | badcfg | reconfig | coord | value | range
  deriving DecidableEq, Repr

/-- The two banks by number (10_state.md R27). -/
inductive BankId where
  | bank0
  | bank1
  deriving DecidableEq, Repr

/-- A response {FAULT, CODE[2:0], DATA[31:0]} (30_encoding.md R52). -/
structure Response where
  fault : Bool
  code : BitVec 3
  data : Word
  deriving DecidableEq, Repr

/-- What reaches the block from outside: a command word on the command port, or an asserted reset
(30_encoding.md R62, 70_reset_and_hazards.md R107). -/
inductive PortEvent where
  | command (word : Word)
  | reset
  deriving DecidableEq, Repr

/-- The bytes of one bank that a command has written since reset: (index, byte) pairs, indices strictly rising. An index
that is not listed has not been written and holds the reset draw (assumption log 1, 2). -/
abbrev Memory := List Host.Cell

/-- The state of the block. `geom`, `status`, `bank0` and `bank1` are the spec's four components (10_state.md R13);
`port` and `responses` are its two ports; `bitOrder` is the parameter BIT_ORDER and `draw` names the reset draw in
force, both the model's own fields (assumption log 1, 3). -/
structure State where
  /-- GEOM (10_state.md R16). -/
  geom : Word
  /-- The packed state word STATE (10_state.md R19). -/
  status : Word
  /-- BANK[0] (10_state.md R27). -/
  bank0 : Memory
  /-- BANK[1] (10_state.md R27). -/
  bank1 : Memory
  /-- The events not yet accepted, oldest first (30_encoding.md R62). -/
  port : List PortEvent
  /-- The responses delivered, oldest first (30_encoding.md R62, 00_scope.md R5). -/
  responses : List Response
  /-- The parameter BIT_ORDER (00_scope.md R6). -/
  bitOrder : Config.BitOrder
  /-- How many reset events came before: which draw the unwritten bytes hold (10_state.md R32). -/
  draw : Nat
  deriving DecidableEq, Repr

/-- Why the machine stops. No state that meets the invariant of 10_state.md R26 stops at all: every fault of the spec is a
response and a next state (60_exceptions.md R95). -/
inductive Fault where
  /-- A bank access outside 0..BANK_BYTES-1, an index the spec says does not exist (00_scope.md R9, 20_memory.md R33).
  Raised by the commands that reach a bank (RDCH, GCB, GCS, GVB, GVS, WRCH, RDB, APPB, APPR), only in states that no
  run reaches, whose GEOM is no legal geometry. Safe (assumption log 7). -/
  | bankIndex
  deriving DecidableEq, Repr

/-- Why an instruction has no meaning. -/
inductive Refusal where
  /-- An instruction the model has not reached. Raised by exec's refused arms alone, of which this model has none.
  Safe. -/
  | notModelled (mnemonic : String)
  deriving DecidableEq, Repr

/-- The state after reset (10_state.md R32): GEOM and STATE zero, no bank byte written (each holds its draw), BIT_ORDER at
the spec's default (00_scope.md R6); nothing offered to the port and nothing answered yet (assumption log 4, 5). -/
def State.reset : State where
  geom := 0
  status := 0
  bank0 := []
  bank1 := []
  port := []
  responses := []
  bitOrder := Config.defaultBitOrder
  draw := 0

end Sys2Proof.Machine
end

