-- ==== Sys2Proof/Machine/Flags.lean ====
section
/-! DEFINITION. The fields of the packed word STATE (10_state.md R19) and its sticky fault bits (R24). The block has no
condition codes (R29): these are all the flags there are. -/

namespace Sys2Proof.Machine

/-- `w` with its bits `lo .. lo+n-1` replaced by `v`. -/
def insertField (w : Word) (lo : Nat) {n : Nat} (v : BitVec n) : Word :=
  (w &&& ~~~((BitVec.allOnes n).setWidth 32 <<< lo)) ||| (v.setWidth 32 <<< lo)

/-- STATE.STRIDE, bits [10:0] (10_state.md R20). -/
def strideOf (w : Word) : Nat := (w.extractLsb' 0 11).toNat

/-- STATE.PENDING, bits [21:11] (10_state.md R21). -/
def pendingOf (w : Word) : Nat := (w.extractLsb' 11 11).toNat

/-- STATE.DISP_SEL, bit 22 (10_state.md R22). -/
def dispSelOf (w : Word) : Bool := w.getLsbD 22

/-- STATE.CFG_VALID, bit 23 (10_state.md R23). -/
def cfgValidOf (w : Word) : Bool := w.getLsbD 23

/-- STATE.STRIDE <- n. The field is 11 bits; every value the block writes in a reachable state fits (assumption log 8). -/
def setStride (w : Word) (n : Nat) : Word := insertField w 0 (BitVec.ofNat 11 n)

/-- STATE.PENDING <- n (assumption log 8). -/
def setPending (w : Word) (n : Nat) : Word := insertField w 11 (BitVec.ofNat 11 n)

/-- STATE.DISP_SEL <- b. -/
def setDispSel (w : Word) (b : Bool) : Word := insertField w 22 (BitVec.ofBool b)

/-- STATE.CFG_VALID <- b. -/
def setCfgValid (w : Word) (b : Bool) : Word := insertField w 23 (BitVec.ofBool b)

/-- The number of a fault code (60_exceptions.md R94). -/
def FaultCode.number : FaultCode → Nat
  | .illegal => 1
  | .nocfg => 2
  | .badcfg => 3
  | .reconfig => 4
  | .coord => 5
  | .value => 6
  | .range => 7

/-- The CODE field of a fault's response (30_encoding.md R52). -/
def FaultCode.code (c : FaultCode) : BitVec 3 := BitVec.ofNat 3 c.number

/-- The bit of STATE that a fault code sets, 24 + code (10_state.md R24). -/
def FaultCode.bit (c : FaultCode) : Nat := 24 + c.number

/-- STATE.FAULT[code] (10_state.md R24). -/
def stickyOf (w : Word) (c : FaultCode) : Bool := w.getLsbD c.bit

/-- STATE.FAULT[code] <- 1 (60_exceptions.md R95). -/
def setSticky (w : Word) (c : FaultCode) : Word := insertField w c.bit (1#1)

end Sys2Proof.Machine
end

