-- ==== Sys2Proof/Machine/Operands.lean ====
section
/-! DEFINITION. The geometry (10_state.md R16-R18), where a voxel channel lies (20_memory.md R34-R37, 41_decode.md R69,
R73), and the conversions of a channel value (41_decode.md R70-R72, 42_encode.md R81). All of it is natural-number
arithmetic, as the spec's (00_scope.md R7, R8). -/

namespace Sys2Proof.Machine

/-- GEOM.CUBE_SIDE, GEOM.CHANNEL_COUNT, GEOM.CHANNEL_SIZE (10_state.md R16). -/
def cubeSideOf (g : Word) : Nat := (g.extractLsb' 0 8).toNat
def channelCountOf (g : Word) : Nat := (g.extractLsb' 8 8).toNat
def channelSizeOf (g : Word) : Nat := (g.extractLsb' 16 8).toNat

/-- GEOM with its three fields written by CONFIG (10_state.md R16, 40_system.md R66). -/
def setGeometry (g : Word) (side count size : BitVec 8) : Word :=
  insertField (insertField (insertField g 0 side) 8 count) 16 size

/-- channelMaxValue = 2^channelSize - 1 (10_state.md R17). -/
def maxValue (size : Nat) : Nat := 2 ^ size - 1

/-- ceil(side^3 * count * size / 8) (10_state.md R17). -/
def frameBytes (side count size : Nat) : Nat := (side ^ 3 * count * size + 7) / 8

/-- bufferSize of the geometry in GEOM (10_state.md R17). -/
def bufferSizeOf (g : Word) : Nat := frameBytes (cubeSideOf g) (channelCountOf g) (channelSizeOf g)

/-- legalGeom (10_state.md R18). -/
def legalGeom (side count size : Nat) : Bool :=
  decide (Config.cubeSideMin ≤ side ∧ side ≤ Config.cubeSideMax ∧
    Config.channelCountMin ≤ count ∧ count ≤ Config.channelCountMax ∧ size ∈ Config.channelSizes)

/-- voxelIndex (20_memory.md R34): z-major, x fastest. -/
def voxelIndex (side x y z : Nat) : Nat := z * side ^ 2 + y * side + x

/-- bitOffset (20_memory.md R35). -/
def bitOffset (count size v c : Nat) : Nat := v * count * size + c * size

/-- byteIndex and bitInByte (20_memory.md R36). -/
def byteIndex (o : Nat) : Nat := o / 8
def bitInByte (o : Nat) : Nat := o % 8

/-- shiftOf (20_memory.md R37) for either value of BIT_ORDER. -/
def shiftOf (order : Config.BitOrder) (size o : Nat) : Nat :=
  match order with
  | .lsbFirst => bitInByte o
  | .msbFirst => 8 - size - bitInByte o

/-- The bit offset of channel `c` of voxel (x, y, z) under the geometry in GEOM (20_memory.md R34, R35). -/
def channelOffset (g : Word) (x y z c : Nat) : Nat :=
  bitOffset (channelCountOf g) (channelSizeOf g) (voxelIndex (cubeSideOf g) x y z) c

/-- The byte index of `loc` (41_decode.md R69). -/
def locByte (g : Word) (x y z c : Nat) : Nat := byteIndex (channelOffset g x y z c)

/-- The shift of `loc` (41_decode.md R69). -/
def locShift (order : Config.BitOrder) (g : Word) (x y z c : Nat) : Nat :=
  shiftOf order (channelSizeOf g) (channelOffset g x y z c)

/-- inRange (41_decode.md R73). -/
def inRange (g : Word) (x y z : Nat) : Bool :=
  decide (x < cubeSideOf g ∧ y < cubeSideOf g ∧ z < cubeSideOf g)

/-- The raw value in a byte (41_decode.md R70). -/
def extractValue (byte : Byte) (sh size : Nat) : Nat := (byte.toNat >>> sh) &&& maxValue size

/-- toBrightness (41_decode.md R71). -/
def toBrightness (size raw : Nat) : Nat := raw * (255 / maxValue size)

/-- toState (41_decode.md R72; conflict C2 of 90_conflicts.md). -/
def toState (size raw : Nat) : Nat := if size = 1 ∧ raw ≠ 0 then 1 else 0

/-- insert (42_encode.md R81): `v` into the channel's bits of `old`, the other bits kept. -/
def insertValue (old : Byte) (sh size v : Nat) : Byte :=
  (old &&& (0xFF#8 &&& ~~~(BitVec.ofNat 8 (maxValue size <<< sh)))) ||| BitVec.ofNat 8 (v <<< sh)

/-- A number as the 32-bit DATA of a response (30_encoding.md R52). -/
def dataWord (n : Nat) : Word := BitVec.ofNat 32 n

end Sys2Proof.Machine
end

