-- ==== Sys2Proof/Machine/Ops.lean ====
section
/-! DEFINITION. The shared operations: the cells of a bank, the roles of the banks, reading and writing a bank byte,
responding, raising a fault (the block's one exception, 60_exceptions.md R95), the prelude (30_encoding.md R58), the
location of a channel in the state, accepting a port event, and reset. -/

namespace Sys2Proof.Machine

/-- The outcome of a command. -/
abbrev Result := Host.Outcome State Fault Refusal

/-! ### The written cells of one bank -/

/-- The byte written at index `i`, or none: an index that is not listed has not been written since reset. -/
def lookup : Memory → Nat → Option Byte
  | [], _ => none
  | (a, v) :: m, i => if a = i then some v else lookup m i

/-- Byte `v` written at index `i`; the list stays sorted by index. -/
def store : Memory → Nat → Byte → Memory
  | [], i, v => [(i, v)]
  | (a, u) :: m, i, v =>
    if i < a then (i, v) :: (a, u) :: m
    else if i = a then (i, v) :: m
    else (a, u) :: store m i v

/-- Byte `v` written at the `n` indices from `p` on, in rising order (the loop of 43_assembly.md R85). -/
def storeRun (m : Memory) (p : Nat) (v : Byte) : Nat → Memory
  | 0 => m
  | n + 1 => store (storeRun m p v n) (p + n) v

/-- Every index listed is at least `lo` and below BANK_BYTES, and the indices rise strictly. -/
def risingFrom (lo : Nat) : Memory → Bool
  | [] => true
  | (a, _) :: m => decide (lo ≤ a ∧ a < Config.bankBytes) && risingFrom (a + 1) m

/-- The canonical form of a bank's cells (assumption log 2): indices strictly rising, each inside the bank. -/
def Memory.wf (m : Memory) : Bool := risingFrom 0 m

/-! ### The banks and their roles (10_state.md R22, R27) -/

/-- The number of a bank. -/
def BankId.number : BankId → Nat
  | .bank0 => 0
  | .bank1 => 1

/-- DB = DISP_SEL. -/
def State.displayBank (s : State) : BankId := if dispSelOf s.status then .bank1 else .bank0

/-- WB = 1 - DISP_SEL. -/
def State.writeBank (s : State) : BankId := if dispSelOf s.status then .bank0 else .bank1

/-- The bank an S bit selects (30_encoding.md R50). -/
def State.bankOf (s : State) : BankSel → BankId
  | .display => s.displayBank
  | .write => s.writeBank

/-- The written cells of a bank. -/
def State.cells (s : State) : BankId → Memory
  | .bank0 => s.bank0
  | .bank1 => s.bank1

/-- The state with a bank's cells replaced. -/
def State.withCells (s : State) (b : BankId) (m : Memory) : State :=
  match b with
  | .bank0 => { s with bank0 := m }
  | .bank1 => { s with bank1 := m }

/-- What an index that no command has written since reset reads as: the draw in force (10_state.md R32). -/
def State.unwritten (s : State) (b : BankId) (i : Nat) : Byte := Config.bankDraw s.draw b.number i

/-- The byte a bank holds at an index: the byte last written there, or the draw if none (20_memory.md R38). -/
def State.byteAt (s : State) (b : BankId) (i : Nat) : Byte := (lookup (s.cells b) i).getD (s.unwritten b i)

/-- The state with one byte of a bank written. -/
def State.storeByte (s : State) (b : BankId) (i : Nat) (v : Byte) : State := s.withCells b (store (s.cells b) i v)

/-- The state with `n` bytes of a bank from index `p` on set to `v`. -/
def State.storeBytes (s : State) (b : BankId) (p : Nat) (v : Byte) (n : Nat) : State :=
  s.withCells b (storeRun (s.cells b) p v n)

/-- BankRead (00_scope.md R9): the byte at an index that exists; any other index is the machine's fault `bankIndex`
(assumption log 7). -/
def bankRead (b : BankId) (i : Nat) (s : State) (go : Byte → Result) : Result :=
  if i < Config.bankBytes then go (s.byteAt b i) else .fault .bankIndex

/-- BankWrite (00_scope.md R9) of one byte. -/
def bankWrite (b : BankId) (i : Nat) (v : Byte) (s : State) (go : State → Result) : Result :=
  if i < Config.bankBytes then go (s.storeByte b i v) else .fault .bankIndex

/-- The run of BankWrites of 43_assembly.md R85: none of them for `n = 0`. -/
def bankWriteRun (b : BankId) (p : Nat) (v : Byte) (n : Nat) (s : State) (go : State → Result) : Result :=
  if n = 0 ∨ p + n ≤ Config.bankBytes then go (s.storeBytes b p v n) else .fault .bankIndex

/-! ### Responses, faults and the prelude -/

/-- respond(d) (00_scope.md R9): one non-fault response carrying `d`. -/
def respond (d : Word) (s : State) : State :=
  { s with responses := s.responses ++ [{ fault := false, code := 0, data := d }] }

/-- raise Fault(code) (60_exceptions.md R95): the sticky bit set, one fault response with DATA 0, nothing else. -/
def raiseFault (c : FaultCode) (s : State) : State :=
  { s with status := setSticky s.status c,
           responses := s.responses ++ [{ fault := true, code := c.code, data := 0 }] }

/-- A command that ends with respond(d). -/
def done (d : Word) (s : State) : Result := .next (respond d s)

/-- A command that ends with raise Fault(code): the block goes on (60_exceptions.md R95). -/
def trap (c : FaultCode) (s : State) : Result := .next (raiseFault c s)

/-- The prelude's second check (30_encoding.md R58): NOCFG while CFG_VALID = 0. -/
def whenConfigured (s : State) (body : Result) : Result := if cfgValidOf s.status then body else trap .nocfg s

/-- The coordinate check (41_decode.md R73). -/
def whenInRange (x y z : BitVec 3) (s : State) (body : Result) : Result :=
  if inRange s.geom x.toNat y.toNat z.toNat then body else trap .coord s

/-! ### The state's own geometry and channels -/

@[simp] abbrev State.bufferSize (s : State) : Nat := bufferSizeOf s.geom
@[simp] abbrev State.channelCount (s : State) : Nat := channelCountOf s.geom
@[simp] abbrev State.channelSize (s : State) : Nat := channelSizeOf s.geom

/-- STATE.STRIDE, STATE.PENDING and the next append index STRIDE + PENDING (43_assembly.md R84). -/
@[simp] abbrev State.stride (s : State) : Nat := strideOf s.status
@[simp] abbrev State.pending (s : State) : Nat := pendingOf s.status
@[simp] abbrev State.appendIndex (s : State) : Nat := s.stride + s.pending

/-- The byte index of a channel (41_decode.md R69). -/
def State.chByte (s : State) (x y z : BitVec 3) (c : Nat) : Nat := locByte s.geom x.toNat y.toNat z.toNat c

/-- The shift of a channel inside its byte (41_decode.md R69), under the state's BIT_ORDER. -/
def State.chShift (s : State) (x y z : BitVec 3) (c : Nat) : Nat :=
  locShift s.bitOrder s.geom x.toNat y.toNat z.toNat c

/-- The raw value a channel has in a bank (41_decode.md R70). -/
def State.rawAt (s : State) (b : BankId) (x y z : BitVec 3) (c : Nat) : Nat :=
  extractValue (s.byteAt b (s.chByte x y z c)) (s.chShift x y z c) s.channelSize

/-- extract (41_decode.md R70): the raw value of a channel, read through BankRead. -/
def extractChannel (b : BankId) (x y z : BitVec 3) (c : Nat) (s : State) (go : Nat → Result) : Result :=
  bankRead b (s.chByte x y z c) s fun byte => go (extractValue byte (s.chShift x y z c) s.channelSize)

/-- The packed word STATE replaced, as one indivisible write (10_state.md R19). -/
def State.withStatus (s : State) (w : Word) : State := { s with status := w }

/-! ### The port and reset -/

/-- Accepting the oldest port event (20_memory.md R38): the event and the state without it, or none when nothing is
offered. -/
def acceptEvent (s : State) : Option (PortEvent × State) :=
  match s.port with
  | [] => none
  | e :: rest => some (e, { s with port := rest })

/-- A command word put before every other event of the port, so that it is the next one accepted. -/
def State.offer (s : State) (w : Word) : State := { s with port := .command w :: s.port }

/-- Reset (70_reset_and_hazards.md R107): GEOM and STATE zero; every bank byte is an arbitrary value again, a fresh draw
(assumption log 6); the parameter, the events still to come and the responses already delivered stay. -/
def resetBlock (s : State) : State :=
  { s with geom := 0, status := 0, bank0 := [], bank1 := [], draw := s.draw + 1 }

end Sys2Proof.Machine
end

