-- ==== Sys2Proof/Machine/Assembly.lean ====
section
/-! DEFINITION. The frame assembly commands APPB, APPR, COMMIT and DISCARD (43_assembly.md R84-R88). -/

namespace Sys2Proof.Machine

/-- APPB (43_assembly.md R84): one byte at STRIDE + PENDING, or dropped with DATA 0 when the write bank is full. -/
def execAppb (byte : BitVec 8) (s : State) : Result :=
  whenConfigured s <|
    if s.appendIndex < s.bufferSize then
      bankWrite s.writeBank s.appendIndex byte s fun t =>
        done 1 (t.withStatus (setPending t.status (t.pending + 1)))
    else done 0 s

/-- The copies an APPR writes (43_assembly.md R85): min(RUN, bufferSize - p). -/
def State.runLength (s : State) (run : BitVec 8) : Nat := min run.toNat (s.bufferSize - s.appendIndex)

/-- APPR (43_assembly.md R85): a run of bytes, truncated at bufferSize. -/
def execAppr (byte run : BitVec 8) (s : State) : Result :=
  whenConfigured s <|
    bankWriteRun s.writeBank s.appendIndex byte (s.runLength run) s fun t =>
      done (dataWord (s.runLength run)) (t.withStatus (setPending t.status (t.pending + s.runLength run)))

/-- COMMIT (43_assembly.md R87): STRIDE and PENDING in one write of STATE; the branch that does not fit is unreachable
(conflict C3 of 90_conflicts.md). -/
def execCommit (s : State) : Result :=
  whenConfigured s <|
    if s.appendIndex ≤ s.bufferSize then
      done 1 (s.withStatus (setPending (setStride s.status s.appendIndex) 0))
    else done 0 (s.withStatus (setPending s.status 0))

/-- DISCARD (43_assembly.md R88): the bytes appended stay in the write bank. -/
def execDiscard (s : State) : Result :=
  whenConfigured s <| done 0 (s.withStatus (setPending s.status 0))

end Sys2Proof.Machine
end

