-- ==== Sys2Proof/Machine/Pack.lean ====
section
/-! DEFINITION. The encode command WRCH (42_encode.md R81, R82). -/

namespace Sys2Proof.Machine

/-- WRCH (42_encode.md R82): COORD is tested before VALUE, and every check precedes the write. -/
def execWrch (x y z : BitVec 3) (ch : BitVec 2) (value : BitVec 8) (s : State) : Result :=
  whenConfigured s <|
    if s.channelCount ≤ ch.toNat then done 0 s
    else whenInRange x y z s <|
      if maxValue s.channelSize < value.toNat then trap .value s
      else
        bankRead s.writeBank (s.chByte x y z ch.toNat) s fun old =>
          bankWrite s.writeBank (s.chByte x y z ch.toNat)
            (insertValue old (s.chShift x y z ch.toNat) s.channelSize value.toNat) s (done 0)

end Sys2Proof.Machine
end

