-- ==== Sys2Proof/Machine/Query.lean ====
section
/-! DEFINITION. The decode commands RDCH, GCB, GCS, GVB, GVS and RDB (41_decode.md R74-R79). Their neutral results come
before the coordinate check (R80, 60_exceptions.md R96). -/

namespace Sys2Proof.Machine

/-- RDCH (41_decode.md R74). -/
def execRdch (sel : BankSel) (x y z : BitVec 3) (ch : BitVec 2) (s : State) : Result :=
  whenConfigured s <|
    if s.channelCount ≤ ch.toNat then done 0 s
    else whenInRange x y z s <|
      extractChannel (s.bankOf sel) x y z ch.toNat s fun raw => done (dataWord raw) s

/-- GCB (41_decode.md R75). -/
def execGcb (x y z : BitVec 3) (ch : BitVec 2) (s : State) : Result :=
  whenConfigured s <|
    if s.channelCount ≤ ch.toNat then done 0 s
    else whenInRange x y z s <|
      extractChannel s.displayBank x y z ch.toNat s fun raw => done (dataWord (toBrightness s.channelSize raw)) s

/-- GCS (41_decode.md R76). -/
def execGcs (x y z : BitVec 3) (ch : BitVec 2) (s : State) : Result :=
  whenConfigured s <|
    if s.channelCount ≤ ch.toNat then done 0 s
    else if s.channelSize ≠ 1 then done 0 s
    else whenInRange x y z s <|
      extractChannel s.displayBank x y z ch.toNat s fun raw => done (dataWord (toState s.channelSize raw)) s

/-- GVB (41_decode.md R77). -/
def execGvb (x y z : BitVec 3) (s : State) : Result :=
  whenConfigured s <|
    if s.channelCount ≠ 1 then done 0 s
    else whenInRange x y z s <|
      extractChannel s.displayBank x y z 0 s fun raw => done (dataWord (toBrightness s.channelSize raw)) s

/-- GVS (41_decode.md R78). -/
def execGvs (x y z : BitVec 3) (s : State) : Result :=
  whenConfigured s <|
    if s.channelCount ≠ 1 then done 0 s
    else if s.channelSize ≠ 1 then done 0 s
    else whenInRange x y z s <|
      extractChannel s.displayBank x y z 0 s fun raw => done (dataWord (toState s.channelSize raw)) s

/-- RDB (41_decode.md R79). -/
def execRdb (sel : BankSel) (idx : BitVec 11) (s : State) : Result :=
  whenConfigured s <|
    if s.bufferSize ≤ idx.toNat then trap .range s
    else bankRead (s.bankOf sel) idx.toNat s fun byte => done (dataWord byte.toNat) s

end Sys2Proof.Machine
end

