-- ==== Sys2Proof/Machine/Swap.lean ====
section
/-! DEFINITION. The buffer swap DISPLAY (44_swap.md R90). -/

namespace Sys2Proof.Machine

/-- STRIDE and PENDING cleared together (44_swap.md R90: "In both cases reset"). -/
def clearCursor (w : Word) : Word := setPending (setStride w 0) 0

/-- DISPLAY (44_swap.md R90): one indivisible update of STATE; no bank byte is copied or cleared. -/
def execDisplay (s : State) : Result :=
  whenConfigured s <|
    if s.stride = s.bufferSize then
      done 1 (s.withStatus (clearCursor (setDispSel s.status (!dispSelOf s.status))))
    else done 0 (s.withStatus (clearCursor s.status))

end Sys2Proof.Machine
end

