-- ==== Sys2Proof/Machine/System.lean ====
section
/-! DEFINITION. The system commands NOP, CONFIG and RDREG (40_system.md R65-R67), which the prelude lets through while
CFG_VALID = 0 (30_encoding.md R58). -/

namespace Sys2Proof.Machine

/-- NOP (40_system.md R65). -/
def execNop (s : State) : Result := done 0 s

/-- CONFIG (40_system.md R66): RECONFIG is tested before BADCFG. -/
def execConfig (side count size : BitVec 8) (s : State) : Result :=
  if cfgValidOf s.status then trap .reconfig s
  else if legalGeom side.toNat count.toNat size.toNat then
    done 0 { s with geom := setGeometry s.geom side count size, status := setCfgValid s.status true }
  else trap .badcfg s

/-- RDREG (40_system.md R67); REG = 3 is illegal (30_encoding.md R55). -/
def execRdreg (reg : BitVec 2) (s : State) : Result :=
  if reg = 0 then done s.status s
  else if reg = 1 then done s.geom s
  else if reg = 2 then done (dataWord s.bufferSize) s
  else trap .illegal s

end Sys2Proof.Machine
end

