-- ==== Sys2Proof/Machine/Dispatch.lean ====
section
/-! DEFINITION. The meaning of each command (30_encoding.md R49): one arm per constructor of Instr. -/

namespace Sys2Proof.Machine

def exec (i : Instr) (s : State) : Host.Outcome State Fault Refusal :=
  match i with
  | .nop => Sys2Proof.Machine.execNop s
  | .config side count size => Sys2Proof.Machine.execConfig side count size s
  | .rdreg reg => Sys2Proof.Machine.execRdreg reg s
  | .rdch sel x y z ch => Sys2Proof.Machine.execRdch sel x y z ch s
  | .gcb x y z ch => Sys2Proof.Machine.execGcb x y z ch s
  | .gcs x y z ch => Sys2Proof.Machine.execGcs x y z ch s
  | .gvb x y z => Sys2Proof.Machine.execGvb x y z s
  | .gvs x y z => Sys2Proof.Machine.execGvs x y z s
  | .wrch x y z ch value => Sys2Proof.Machine.execWrch x y z ch value s
  | .rdb sel idx => Sys2Proof.Machine.execRdb sel idx s
  | .appb byte => Sys2Proof.Machine.execAppb byte s
  | .appr byte run => Sys2Proof.Machine.execAppr byte run s
  | .commit => Sys2Proof.Machine.execCommit s
  | .discard => Sys2Proof.Machine.execDiscard s
  | .display => Sys2Proof.Machine.execDisplay s

end Sys2Proof.Machine
end

