-- ==== Sys2Proof/Machine/Execute.lean ====
section
/-! DEFINITION. Executing a command word (30_encoding.md R57, R58): ILLEGAL first, then the command. -/

namespace Sys2Proof.Machine

/-- execute(w) (30_encoding.md R58). The NOCFG check stands in the meaning of each command that makes it. -/
def executeWord (w : Word) (s : State) : Result :=
  match decode w with
  | .ok i => exec i s
  | .error _ => trap .illegal s

/-- What the block does with one port event. -/
def takeEvent (e : PortEvent) (s : State) : Result :=
  match e with
  | .command w => executeWord w s
  | .reset => .next (resetBlock s)

end Sys2Proof.Machine
end

