-- ==== Sys2Proof/Machine/Step.lean ====
section
/-! DEFINITION. One step of the block: the oldest event of its port, whole (20_memory.md R38, 70_reset_and_hazards.md
R110). -/

namespace Sys2Proof.Machine

/-- One step. With nothing offered the block is idle and holds all state (60_exceptions.md R105). -/
def step (s : State) : Host.Outcome State Fault Refusal :=
  match acceptEvent s with
  | none => .next s
  | some (e, t) => takeEvent e t

/-- `s` with the opcode-table word `w` offered to the command port before every other event, so that the next step runs
it (assumption log 4). A word wider than the port's 32 bits does not exist, and leaves the state as it is. -/
def State.withFetchWord (s : State) (nbits w : Nat) : State :=
  match tableWord nbits w with
  | some word => s.offer word
  | none => s

end Sys2Proof.Machine
end

