-- ==== Sys2Proof/Machine/Controller.lean ====
section
/-! DEFINITION. What the spec says of the controller outside the block: the pseudo-instructions (30_encoding.md R60), the
commands it issues for each event of the source's protocol (R61), and where a frame lies in an animation record
(20_memory.md R45). No step of the machine uses any of this; no protocol byte value stands here (U13). -/

namespace Sys2Proof.Machine

/-- The 8 bytes of a RAW request, and the 4 (value, runLength) pairs of a COMPRESSED request, value first
(30_encoding.md R61). -/
structure RawPayload where
  bytes : Vector Byte 8
  deriving DecidableEq, Repr

structure RunPayload where
  pairs : Vector (Byte × Byte) 4
  deriving DecidableEq, Repr

/-- RAW8 (30_encoding.md R60). -/
def raw8 (p : RawPayload) : List Instr := p.bytes.toList.map .appb

/-- RLE4 (30_encoding.md R60). -/
def rle4 (p : RunPayload) : List Instr := p.pairs.toList.map fun q => .appr q.1 q.2

/-- ACK and CORRUPT (30_encoding.md R60). -/
def ack : List Instr := [.commit]
def corrupt : List Instr := [.discard]

/-- FILL v, n (30_encoding.md R60). -/
def fill (v : Byte) (n : Nat) : List Instr :=
  List.replicate (n / 255) (.appr v 255) ++ (if n % 255 = 0 then [] else [.appr v (BitVec.ofNat 8 (n % 255))])

/-- The events of the source's protocol that reach the block (30_encoding.md R61). -/
inductive StreamEvent where
  | handshake
  | raw (p : RawPayload)
  | compressed (p : RunPayload)
  | streamEndMatched
  | streamEndMismatched
  | requestAborted
  | displayRequest
  deriving DecidableEq, Repr

/-- The commands the controller issues for an event (30_encoding.md R61). -/
def StreamEvent.commands : StreamEvent → List Instr
  | .handshake => [.rdreg 1]
  | .raw p => raw8 p
  | .compressed p => rle4 p
  | .streamEndMatched => ack
  | .streamEndMismatched => corrupt
  | .requestAborted => [.discard]
  | .displayRequest => [.display]

/-- The replies of the source's protocol that a response decides (30_encoding.md R61), by name. -/
inductive StreamReply where
  | frameDisplayed
  | frameFailed
  deriving DecidableEq, Repr

/-- DATA = 1: FRAME_DISPLAYED; DATA = 0: FRAME_FAILED (30_encoding.md R61). -/
def displayReply (data : Word) : StreamReply := if data = 1 then .frameDisplayed else .frameFailed

/-- The geometry bytes of the handshake's reply: GEOM[7:0], GEOM[15:8], GEOM[23:16] (30_encoding.md R61). -/
def handshakeBytes (geom : Word) : List Byte := [geom.extractLsb' 0 8, geom.extractLsb' 8 8, geom.extractLsb' 16 8]

/-- Where frame `k` of an animation record has its duration and its packed frame (20_memory.md R45). -/
def durationAt (bufferSize k : Nat) : Nat := 5 + k * (4 + bufferSize)
def frameAt (bufferSize k : Nat) : Nat := 9 + k * (4 + bufferSize)

end Sys2Proof.Machine
end

