-- ==== Sys2Proof/Machine/Run.lean ====
section
/-! DEFINITION. Runs: commands one after another, and what is observed of a run (00_scope.md R5, 70_reset_and_hazards.md
R119). -/

namespace Sys2Proof.Machine

/-- Commands executed in order (20_memory.md R38). -/
def runInstrs : List Instr → State → Result
  | [], s => .next s
  | i :: rest, s =>
    match exec i s with
    | .next t => runInstrs rest t
    | .fault r => .fault r
    | .refused r => .refused r

/-- Command words executed in order: a run (70_reset_and_hazards.md R119). -/
def runWords : List Word → State → Result
  | [], s => .next s
  | w :: rest, s =>
    match executeWord w s with
    | .next t => runWords rest t
    | .fault r => .fault r
    | .refused r => .refused r

/-- What is observed of a run (70_reset_and_hazards.md R119): the responses, the final GEOM and STATE, and bytes
0..bufferSize-1 of both banks. -/
structure Observation where
  responses : List Response
  geom : Word
  status : Word
  frame0 : List Byte
  frame1 : List Byte
  deriving DecidableEq, Repr

/-- Bytes 0..bufferSize-1 of a bank (20_memory.md R44). -/
def State.frame (s : State) (b : BankId) : List Byte := (List.range s.bufferSize).map (s.byteAt b)

/-- The observation of a state (00_scope.md R5). -/
def observe (s : State) : Observation :=
  { responses := s.responses, geom := s.geom, status := s.status, frame0 := s.frame .bank0, frame1 := s.frame .bank1 }

/-- The sum of the PENDING values that the COMMITs of a run commit (43_assembly.md R89). -/
def committedBy : List Instr → State → Nat
  | [], _ => 0
  | i :: rest, s =>
    match exec i s with
    | .next t => (if i = .commit then s.pending else 0) + committedBy rest t
    | .fault _ => 0
    | .refused _ => 0

end Sys2Proof.Machine
end

