-- ==== Sys2Proof/Safety.lean ====
section
/-! DEFINITION. The terms claims are stated in: the invariants of a reachable state (10_state.md R25, R26), what a command
that responds or faults leaves unchanged, and the spec's formulas for a channel written out on numbers. -/

namespace Sys2Proof.Machine

/-! ### Invariants -/

/-- GEOM holds a legal geometry (10_state.md R18). -/
def legalWord (g : Word) : Bool := legalGeom (cubeSideOf g) (channelCountOf g) (channelSizeOf g)

/-- The invariants of 10_state.md R26, with DISP_SEL = 0 before CONFIG (40_system.md R66). -/
abbrev State.CursorInv (s : State) : Prop :=
  (cfgValidOf s.status = false → s.stride = 0 ∧ s.pending = 0 ∧ dispSelOf s.status = false ∧ s.geom = 0) ∧
  (cfgValidOf s.status = true → legalWord s.geom = true ∧ s.stride + s.pending ≤ s.bufferSize)

/-- The reserved bits of STATE and GEOM read 0 (10_state.md R25). -/
abbrev State.ReservedZero (s : State) : Prop := s.status.getLsbD 24 = false ∧ s.geom.extractLsb' 24 8 = 0

/-- Both banks' cells are in their canonical form (assumption log 2). -/
abbrev State.BanksCanonical (s : State) : Prop := Memory.wf s.bank0 = true ∧ Memory.wf s.bank1 = true

/-- What holds of every state a run reaches. -/
abbrev State.Inv (s : State) : Prop := s.CursorInv ∧ s.ReservedZero ∧ s.BanksCanonical

/-- A configured state that meets the invariant. -/
abbrev State.Ready (s : State) : Prop := s.Inv ∧ cfgValidOf s.status = true

/-- Every byte below STRIDE + PENDING of the write bank has been written since reset (44_swap.md R92). -/
abbrev State.Assembled (s : State) : Prop :=
  ∀ i < s.appendIndex, (lookup (s.cells s.writeBank) i).isSome = true

/-- Every byte of the display bank's frame has been written since reset: none of them is a reset draw (44_swap.md R92). -/
abbrev State.FrameWritten (s : State) : Prop :=
  ∀ i < s.bufferSize, (lookup (s.cells s.displayBank) i).isSome = true

/-! ### What a command leaves unchanged -/

/-- The port's later events, the parameter BIT_ORDER and the reset draw in force. -/
structure SameEnv (s t : State) : Prop where
  port : t.port = s.port
  bitOrder : t.bitOrder = s.bitOrder
  draw : t.draw = s.draw

/-- Every byte of both banks reads as before. -/
def SameBanks (s t : State) : Prop := ∀ b i, t.byteAt b i = s.byteAt b i

/-- Every byte of both banks but the bytes `p .. p+n-1` of bank `b` reads as before. -/
def SameBanksBut (b : BankId) (p n : Nat) (s t : State) : Prop :=
  ∀ c i, ¬ (c = b ∧ p ≤ i ∧ i < p + n) → t.byteAt c i = s.byteAt c i

/-- Every bit of STATE outside `lo .. lo+n-1` is as before. -/
def SameStatusBut (lo n : Nat) (s t : State) : Prop :=
  ∀ i, ¬ (lo ≤ i ∧ i < lo + n) → t.status.getLsbD i = s.status.getLsbD i

/-- The one new response is {0, 0, d} (30_encoding.md R52). -/
def Responds (s t : State) (d : Word) : Prop :=
  t.responses = s.responses ++ [{ fault := false, code := 0, data := d }]

/-- The command responds with `d` and changes nothing else. -/
structure OnlyResponds (s t : State) (d : Word) : Prop where
  responds : Responds s t d
  geom : t.geom = s.geom
  status : t.status = s.status
  banks : SameBanks s t
  env : SameEnv s t

/-- The command faults with code `k` (60_exceptions.md R95): response {1, k, 0}, bit 24 + k of STATE set, nothing else
changed. -/
structure Faults (s t : State) (k : Nat) : Prop where
  responds : t.responses = s.responses ++ [{ fault := true, code := BitVec.ofNat 3 k, data := 0 }]
  sticky : ∀ i, t.status.getLsbD i = (s.status.getLsbD i || decide (i = 24 + k))
  geom : t.geom = s.geom
  banks : SameBanks s t
  env : SameEnv s t

/-- The instruction's own outcome is a next state that `P` describes. -/
def Completes (i : Instr) (s : State) (P : State → Prop) : Prop := ∃ t, exec i s = .next t ∧ P t

/-- The words with OP = `code` (30_encoding.md R49, R53): the legal ones decode as `read` says, and every other one faults
ILLEGAL, with no other effect, in every state. -/
def EncodedAs (code : BitVec 4) (legal : Word → Prop) (read : Word → Instr) : Prop :=
  ∀ w : Word, w.extractLsb' 28 4 = code →
    (legal w → decode w = .ok (read w)) ∧
    (¬ legal w → ∀ s, ∃ t, executeWord w s = .next t ∧ Faults s t 1)

/-- The S bit of a word: 0 = display bank, 1 = write bank (30_encoding.md R50). -/
def selBit (w : Word) : BankSel := if w.getLsbD 27 then .write else .display

/-- The commands that fault NOCFG before CONFIG: every one but NOP, CONFIG and RDREG (30_encoding.md R58). -/
def isDataCommand : Instr → Bool
  | .nop => false
  | .config _ _ _ => false
  | .rdreg _ => false
  | .rdch _ _ _ _ _ => true
  | .gcb _ _ _ _ => true
  | .gcs _ _ _ _ => true
  | .gvb _ _ _ => true
  | .gvs _ _ _ => true
  | .wrch _ _ _ _ _ => true
  | .rdb _ _ => true
  | .appb _ => true
  | .appr _ _ => true
  | .commit => true
  | .discard => true
  | .display => true

/-- The decode commands RDCH, GCB, GCS, GVB, GVS and RDB (41_decode.md R80). -/
def isDecodeCommand : Instr → Bool
  | .nop => false
  | .config _ _ _ => false
  | .rdreg _ => false
  | .rdch _ _ _ _ _ => true
  | .gcb _ _ _ _ => true
  | .gcs _ _ _ _ => true
  | .gvb _ _ _ => true
  | .gvs _ _ _ => true
  | .wrch _ _ _ _ _ => false
  | .rdb _ _ => true
  | .appb _ => false
  | .appr _ _ => false
  | .commit => false
  | .discard => false
  | .display => false

/-- The decode commands that read the display bank: all of them but RDCH and RDB with S = 1 (20_memory.md R39). -/
def readsDisplay : Instr → Bool
  | .nop => false
  | .config _ _ _ => false
  | .rdreg _ => false
  | .rdch sel _ _ _ _ => sel == .display
  | .gcb _ _ _ _ => true
  | .gcs _ _ _ _ => true
  | .gvb _ _ _ => true
  | .gvs _ _ _ => true
  | .wrch _ _ _ _ _ => false
  | .rdb sel _ => sel == .display
  | .appb _ => false
  | .appr _ _ => false
  | .commit => false
  | .discard => false
  | .display => false

/-- The bytes of a chunk appended from STRIDE + PENDING on, truncated at bufferSize (43_assembly.md R86): the bytes that
fit are in the write bank and counted in PENDING; STRIDE and every other byte are as before. -/
structure Appends (s t : State) (bytes : List Byte) : Prop where
  pending : t.pending = s.pending + min bytes.length (s.bufferSize - s.appendIndex)
  written : ∀ j < min bytes.length (s.bufferSize - s.appendIndex),
    t.byteAt s.writeBank (s.appendIndex + j) = bytes.getD j 0
  others : SameBanksBut s.writeBank s.appendIndex (min bytes.length (s.bufferSize - s.appendIndex)) s t
  status : SameStatusBut 11 11 s t
  geom : t.geom = s.geom
  env : SameEnv s t

/-! ### The spec's formulas on numbers -/

/-- bufferSize = ceil(cubeSide^3 * channelCount * channelSize / 8) (10_state.md R17; ceiling of 00_scope.md R8). -/
def specBufferSize (g : Word) : Nat :=
  (g.toNat % 256 * (g.toNat % 256) * (g.toNat % 256) * (g.toNat / 256 % 256) * (g.toNat / 65536 % 256) + 8 - 1) / 8

/-- The bit offset of a channel: z·side² + y·side + x voxels of count·size bits each, then the channel
(20_memory.md R34, R35). -/
def specOffset (side count size x y z c : Nat) : Nat :=
  (z * side * side + y * side + x) * count * size + c * size

/-- The lowest bit of the channel inside its byte, for either bit order (20_memory.md R37). -/
def specShift (order : Config.BitOrder) (size o : Nat) : Nat :=
  match order with
  | .lsbFirst => o % 8
  | .msbFirst => 8 - size - o % 8

/-- The raw value of the channel whose lowest bit is bit `sh` of a byte (41_decode.md R70): `size` bits from there up. -/
def specExtract (byte : Byte) (sh size : Nat) : Nat := byte.toNat / 2 ^ sh % 2 ^ size

/-- The bank numbered 0 or 1 (10_state.md R27). -/
def bankNumbered (n : Bool) : BankId := if n then .bank1 else .bank0

/-- DB = DISP_SEL and WB = 1 - DISP_SEL, bit 22 of STATE (10_state.md R22). -/
def State.DB (s : State) : BankId := bankNumbered (s.status.getLsbD 22)
def State.WB (s : State) : BankId := bankNumbered (!s.status.getLsbD 22)

/-- The bank an S bit names (30_encoding.md R50). -/
def State.roleBank (s : State) (sel : BankSel) : BankId := if sel = .write then s.WB else s.DB

/-- The bit offset, the byte and the shift of a channel under the geometry and bit order of a state. -/
def State.specOffset (s : State) (x y z : BitVec 3) (c : Nat) : Nat :=
  Sys2Proof.Machine.specOffset (cubeSideOf s.geom) (channelCountOf s.geom) (channelSizeOf s.geom)
    x.toNat y.toNat z.toNat c
def State.specByte (s : State) (x y z : BitVec 3) (c : Nat) : Nat := s.specOffset x y z c / 8
def State.specShift (s : State) (x y z : BitVec 3) (c : Nat) : Nat :=
  Sys2Proof.Machine.specShift s.bitOrder (channelSizeOf s.geom) (s.specOffset x y z c)

/-- The raw value that bank `b` holds for a channel. -/
def State.specRaw (s : State) (b : BankId) (x y z : BitVec 3) (c : Nat) : Nat :=
  specExtract (s.byteAt b (s.specByte x y z c)) (s.specShift x y z c) (channelSizeOf s.geom)

/-- A coordinate inside the cube (20_memory.md R34). -/
abbrev State.InCube (s : State) (x y z : BitVec 3) : Prop :=
  x.toNat < cubeSideOf s.geom ∧ y.toNat < cubeSideOf s.geom ∧ z.toNat < cubeSideOf s.geom

end Sys2Proof.Machine
end

