-- ==== Sys2Proof/Certificates/Slice0/Obligations.lean ====
section
/-! DEFINITION. The statements for the provers. Each says in its docstring which rule of the spec it formalises; the terms
it uses are those of Safety.lean. -/

open Sys2Proof Sys2Proof.Machine

/-! ### The commands, one statement each: the words that encode it, and what it does in every case -/

/-- 40_system.md R65: NOP responds with 0 in every state and changes nothing else. -/
def Obligations.NopRespondsZero : Prop :=
  EncodedAs 0x0 (fun w => w &&& 0xFFFFFFFF = 0x00000000) (fun _ => .nop) ∧
  ∀ s : State, Completes .nop s fun t => OnlyResponds s t 0

/-- 40_system.md R66: CONFIG faults RECONFIG when configured, then BADCFG outside the legal domain (10_state.md R18), and
else writes the three fields of GEOM and CFG_VALID and nothing else. -/
def Obligations.ConfigSetsGeometryOnce : Prop :=
  EncodedAs 0x1 (fun w => w &&& 0xFF000000 = 0x10000000)
    (fun w => .config (w.extractLsb' 0 8) (w.extractLsb' 8 8) (w.extractLsb' 16 8)) ∧
  ∀ (side count size : BitVec 8) (s : State),
    (s.status.getLsbD 23 = true → Completes (.config side count size) s fun t => Faults s t 4) ∧
    (s.status.getLsbD 23 = false →
      ¬ (1 ≤ side.toNat ∧ side.toNat ≤ 8 ∧ 1 ≤ count.toNat ∧ count.toNat ≤ 3 ∧ size.toNat ∈ [1, 2, 4, 8]) →
      Completes (.config side count size) s fun t => Faults s t 3) ∧
    (s.status.getLsbD 23 = false →
      (1 ≤ side.toNat ∧ side.toNat ≤ 8 ∧ 1 ≤ count.toNat ∧ count.toNat ≤ 3 ∧ size.toNat ∈ [1, 2, 4, 8]) →
      Completes (.config side count size) s fun t =>
        Responds s t 0 ∧
        t.geom.extractLsb' 0 8 = side ∧ t.geom.extractLsb' 8 8 = count ∧ t.geom.extractLsb' 16 8 = size ∧
        t.geom.extractLsb' 24 8 = s.geom.extractLsb' 24 8 ∧
        t.status.getLsbD 23 = true ∧ SameStatusBut 23 1 s t ∧ SameBanks s t ∧ SameEnv s t)

/-- 40_system.md R67: RDREG responds with STATE, GEOM or bufferSize, before CONFIG too; REG = 3 is illegal
(30_encoding.md R55). -/
def Obligations.RdregReadsRegisters : Prop :=
  EncodedAs 0x2 (fun w => w &&& 0xFFFFFFFC = 0x20000000 ∧ w.extractLsb' 0 2 ≠ 3)
    (fun w => .rdreg (w.extractLsb' 0 2)) ∧
  ∀ s : State,
    (Completes (.rdreg 0) s fun t => OnlyResponds s t s.status) ∧
    (Completes (.rdreg 1) s fun t => OnlyResponds s t s.geom) ∧
    (Completes (.rdreg 2) s fun t => OnlyResponds s t (BitVec.ofNat 32 (specBufferSize s.geom)))

/-- 41_decode.md R74: RDCH responds with the raw value of the channel in the bank S names; 0 for a channel the geometry
lacks, whatever the coordinates; COORD outside the cube; NOCFG before CONFIG. -/
def Obligations.RdchReturnsRawValue : Prop :=
  EncodedAs 0x3 (fun w => w &&& 0xF7FFF800 = 0x30000000)
    (fun w => .rdch (selBit w) (w.extractLsb' 0 3) (w.extractLsb' 3 3) (w.extractLsb' 6 3) (w.extractLsb' 9 2)) ∧
  ∀ (sel : BankSel) (x y z : BitVec 3) (ch : BitVec 2) (s : State), s.Inv →
    (s.status.getLsbD 23 = false → Completes (.rdch sel x y z ch) s fun t => Faults s t 2) ∧
    (s.status.getLsbD 23 = true → channelCountOf s.geom ≤ ch.toNat →
      Completes (.rdch sel x y z ch) s fun t => OnlyResponds s t 0) ∧
    (s.status.getLsbD 23 = true → ch.toNat < channelCountOf s.geom → ¬ s.InCube x y z →
      Completes (.rdch sel x y z ch) s fun t => Faults s t 5) ∧
    (s.status.getLsbD 23 = true → ch.toNat < channelCountOf s.geom → s.InCube x y z →
      Completes (.rdch sel x y z ch) s fun t =>
        OnlyResponds s t (BitVec.ofNat 32 (s.specRaw (s.roleBank sel) x y z ch.toNat)))

/-- 41_decode.md R75: GCB responds with the raw value of the display bank times 255 div channelMaxValue (R71). -/
def Obligations.GcbReturnsBrightness : Prop :=
  EncodedAs 0x4 (fun w => w &&& 0xFFFFF800 = 0x40000000)
    (fun w => .gcb (w.extractLsb' 0 3) (w.extractLsb' 3 3) (w.extractLsb' 6 3) (w.extractLsb' 9 2)) ∧
  ∀ (x y z : BitVec 3) (ch : BitVec 2) (s : State), s.Inv →
    (s.status.getLsbD 23 = false → Completes (.gcb x y z ch) s fun t => Faults s t 2) ∧
    (s.status.getLsbD 23 = true → channelCountOf s.geom ≤ ch.toNat →
      Completes (.gcb x y z ch) s fun t => OnlyResponds s t 0) ∧
    (s.status.getLsbD 23 = true → ch.toNat < channelCountOf s.geom → ¬ s.InCube x y z →
      Completes (.gcb x y z ch) s fun t => Faults s t 5) ∧
    (s.status.getLsbD 23 = true → ch.toNat < channelCountOf s.geom → s.InCube x y z →
      Completes (.gcb x y z ch) s fun t => OnlyResponds s t
        (BitVec.ofNat 32 (s.specRaw s.DB x y z ch.toNat * (255 / (2 ^ channelSizeOf s.geom - 1)))))

/-- 41_decode.md R76: GCS responds with the raw bit of the display bank when channelSize = 1, and with 0 for every
coordinate when it is not. -/
def Obligations.GcsReturnsChannelState : Prop :=
  EncodedAs 0x5 (fun w => w &&& 0xFFFFF800 = 0x50000000)
    (fun w => .gcs (w.extractLsb' 0 3) (w.extractLsb' 3 3) (w.extractLsb' 6 3) (w.extractLsb' 9 2)) ∧
  ∀ (x y z : BitVec 3) (ch : BitVec 2) (s : State), s.Inv →
    (s.status.getLsbD 23 = false → Completes (.gcs x y z ch) s fun t => Faults s t 2) ∧
    (s.status.getLsbD 23 = true → (channelCountOf s.geom ≤ ch.toNat ∨ channelSizeOf s.geom ≠ 1) →
      Completes (.gcs x y z ch) s fun t => OnlyResponds s t 0) ∧
    (s.status.getLsbD 23 = true → ch.toNat < channelCountOf s.geom → channelSizeOf s.geom = 1 → ¬ s.InCube x y z →
      Completes (.gcs x y z ch) s fun t => Faults s t 5) ∧
    (s.status.getLsbD 23 = true → ch.toNat < channelCountOf s.geom → channelSizeOf s.geom = 1 → s.InCube x y z →
      Completes (.gcs x y z ch) s fun t => OnlyResponds s t (BitVec.ofNat 32 (s.specRaw s.DB x y z ch.toNat)))

/-- 41_decode.md R77: GVB responds with the brightness of channel 0 when channelCount = 1, and with 0 for every
coordinate when it is not. -/
def Obligations.GvbReturnsVoxelBrightness : Prop :=
  EncodedAs 0x6 (fun w => w &&& 0xFFFFFE00 = 0x60000000)
    (fun w => .gvb (w.extractLsb' 0 3) (w.extractLsb' 3 3) (w.extractLsb' 6 3)) ∧
  ∀ (x y z : BitVec 3) (s : State), s.Inv →
    (s.status.getLsbD 23 = false → Completes (.gvb x y z) s fun t => Faults s t 2) ∧
    (s.status.getLsbD 23 = true → channelCountOf s.geom ≠ 1 →
      Completes (.gvb x y z) s fun t => OnlyResponds s t 0) ∧
    (s.status.getLsbD 23 = true → channelCountOf s.geom = 1 → ¬ s.InCube x y z →
      Completes (.gvb x y z) s fun t => Faults s t 5) ∧
    (s.status.getLsbD 23 = true → channelCountOf s.geom = 1 → s.InCube x y z →
      Completes (.gvb x y z) s fun t => OnlyResponds s t
        (BitVec.ofNat 32 (s.specRaw s.DB x y z 0 * (255 / (2 ^ channelSizeOf s.geom - 1)))))

/-- 41_decode.md R78: GVS responds with the raw bit of channel 0 when channelCount = channelSize = 1, and with 0 for every
coordinate when either is not. -/
def Obligations.GvsReturnsVoxelState : Prop :=
  EncodedAs 0x7 (fun w => w &&& 0xFFFFFE00 = 0x70000000)
    (fun w => .gvs (w.extractLsb' 0 3) (w.extractLsb' 3 3) (w.extractLsb' 6 3)) ∧
  ∀ (x y z : BitVec 3) (s : State), s.Inv →
    (s.status.getLsbD 23 = false → Completes (.gvs x y z) s fun t => Faults s t 2) ∧
    (s.status.getLsbD 23 = true → (channelCountOf s.geom ≠ 1 ∨ channelSizeOf s.geom ≠ 1) →
      Completes (.gvs x y z) s fun t => OnlyResponds s t 0) ∧
    (s.status.getLsbD 23 = true → channelCountOf s.geom = 1 → channelSizeOf s.geom = 1 → ¬ s.InCube x y z →
      Completes (.gvs x y z) s fun t => Faults s t 5) ∧
    (s.status.getLsbD 23 = true → channelCountOf s.geom = 1 → channelSizeOf s.geom = 1 → s.InCube x y z →
      Completes (.gvs x y z) s fun t => OnlyResponds s t (BitVec.ofNat 32 (s.specRaw s.DB x y z 0)))

/-- 42_encode.md R82: WRCH writes VAL into the channel's bits of one byte of the write bank and nothing else; a channel the
geometry lacks is no write and no fault; COORD before VALUE. -/
def Obligations.WrchPacksValue : Prop :=
  EncodedAs 0x8 (fun w => w &&& 0xFF00F800 = 0x80000000)
    (fun w => .wrch (w.extractLsb' 0 3) (w.extractLsb' 3 3) (w.extractLsb' 6 3) (w.extractLsb' 9 2)
      (w.extractLsb' 16 8)) ∧
  ∀ (x y z : BitVec 3) (ch : BitVec 2) (value : BitVec 8) (s : State), s.Inv →
    (s.status.getLsbD 23 = false → Completes (.wrch x y z ch value) s fun t => Faults s t 2) ∧
    (s.status.getLsbD 23 = true → channelCountOf s.geom ≤ ch.toNat →
      Completes (.wrch x y z ch value) s fun t => OnlyResponds s t 0) ∧
    (s.status.getLsbD 23 = true → ch.toNat < channelCountOf s.geom → ¬ s.InCube x y z →
      Completes (.wrch x y z ch value) s fun t => Faults s t 5) ∧
    (s.status.getLsbD 23 = true → ch.toNat < channelCountOf s.geom → s.InCube x y z →
      2 ^ channelSizeOf s.geom - 1 < value.toNat →
      Completes (.wrch x y z ch value) s fun t => Faults s t 6) ∧
    (s.status.getLsbD 23 = true → ch.toNat < channelCountOf s.geom → s.InCube x y z →
      value.toNat ≤ 2 ^ channelSizeOf s.geom - 1 →
      Completes (.wrch x y z ch value) s fun t =>
        Responds s t 0 ∧
        (∀ j, (t.byteAt s.WB (s.specByte x y z ch.toNat)).getLsbD j =
          if s.specShift x y z ch.toNat ≤ j ∧ j < s.specShift x y z ch.toNat + channelSizeOf s.geom
          then value.getLsbD (j - s.specShift x y z ch.toNat)
          else (s.byteAt s.WB (s.specByte x y z ch.toNat)).getLsbD j) ∧
        SameBanksBut s.WB (s.specByte x y z ch.toNat) 1 s t ∧
        t.geom = s.geom ∧ t.status = s.status ∧ SameEnv s t)

/-- 41_decode.md R79: RDB responds with one byte of the bank S names, and faults RANGE from bufferSize up. -/
def Obligations.RdbReturnsByte : Prop :=
  EncodedAs 0x9 (fun w => w &&& 0xF7FFF800 = 0x90000000) (fun w => .rdb (selBit w) (w.extractLsb' 0 11)) ∧
  ∀ (sel : BankSel) (idx : BitVec 11) (s : State), s.Inv →
    (s.status.getLsbD 23 = false → Completes (.rdb sel idx) s fun t => Faults s t 2) ∧
    (s.status.getLsbD 23 = true → specBufferSize s.geom ≤ idx.toNat →
      Completes (.rdb sel idx) s fun t => Faults s t 7) ∧
    (s.status.getLsbD 23 = true → idx.toNat < specBufferSize s.geom →
      Completes (.rdb sel idx) s fun t =>
        OnlyResponds s t (BitVec.ofNat 32 (s.byteAt (s.roleBank sel) idx.toNat).toNat))

/-- 43_assembly.md R84: APPB writes its byte at STRIDE + PENDING of the write bank, adds 1 to PENDING and responds 1; with
the write bank full it drops the byte, responds 0 and changes nothing. -/
def Obligations.AppbAppendsByte : Prop :=
  EncodedAs 0xA (fun w => w &&& 0xFFFFFF00 = 0xA0000000) (fun w => .appb (w.extractLsb' 0 8)) ∧
  ∀ (byte : BitVec 8) (s : State), s.Inv →
    (s.status.getLsbD 23 = false → Completes (.appb byte) s fun t => Faults s t 2) ∧
    (s.status.getLsbD 23 = true → s.stride + s.pending < specBufferSize s.geom →
      Completes (.appb byte) s fun t =>
        Responds s t 1 ∧ t.byteAt s.WB (s.stride + s.pending) = byte ∧
        SameBanksBut s.WB (s.stride + s.pending) 1 s t ∧
        t.pending = s.pending + 1 ∧ SameStatusBut 11 11 s t ∧ t.geom = s.geom ∧ SameEnv s t) ∧
    (s.status.getLsbD 23 = true → specBufferSize s.geom ≤ s.stride + s.pending →
      Completes (.appb byte) s fun t => OnlyResponds s t 0)

/-- 43_assembly.md R85: APPR writes k = min(RUN, bufferSize - p) copies from p = STRIDE + PENDING on, adds k to PENDING and
responds k. -/
def Obligations.ApprAppendsRun : Prop :=
  EncodedAs 0xB (fun w => w &&& 0xFFFF0000 = 0xB0000000)
    (fun w => .appr (w.extractLsb' 0 8) (w.extractLsb' 8 8)) ∧
  ∀ (byte run : BitVec 8) (s : State), s.Inv →
    (s.status.getLsbD 23 = false → Completes (.appr byte run) s fun t => Faults s t 2) ∧
    (s.status.getLsbD 23 = true →
      Completes (.appr byte run) s fun t =>
        ∃ k, k = min run.toNat (specBufferSize s.geom - (s.stride + s.pending)) ∧
        Responds s t (BitVec.ofNat 32 k) ∧
        (∀ j < k, t.byteAt s.WB (s.stride + s.pending + j) = byte) ∧
        SameBanksBut s.WB (s.stride + s.pending) k s t ∧
        t.pending = s.pending + k ∧ SameStatusBut 11 11 s t ∧ t.geom = s.geom ∧ SameEnv s t)

/-- 43_assembly.md R87: COMMIT adds PENDING to STRIDE, clears PENDING and responds 1 when the sum fits; else it only clears
PENDING and responds 0; and in a state that meets the invariant the sum always fits. -/
def Obligations.CommitAddsPending : Prop :=
  EncodedAs 0xC (fun w => w &&& 0xFFFFFFFF = 0xC0000000) (fun _ => .commit) ∧
  ∀ s : State,
    (s.status.getLsbD 23 = false → Completes .commit s fun t => Faults s t 2) ∧
    (s.status.getLsbD 23 = true → s.stride + s.pending ≤ specBufferSize s.geom → specBufferSize s.geom ≤ 1536 →
      Completes .commit s fun t =>
        Responds s t 1 ∧ t.stride = s.stride + s.pending ∧ t.pending = 0 ∧
        SameStatusBut 0 22 s t ∧ SameBanks s t ∧ t.geom = s.geom ∧ SameEnv s t) ∧
    (s.status.getLsbD 23 = true → specBufferSize s.geom < s.stride + s.pending →
      Completes .commit s fun t =>
        Responds s t 0 ∧ t.pending = 0 ∧
        SameStatusBut 11 11 s t ∧ SameBanks s t ∧ t.geom = s.geom ∧ SameEnv s t) ∧
    (s.Ready → Completes .commit s fun t => Responds s t 1 ∧ t.stride = s.stride + s.pending ∧ t.pending = 0)

/-- 43_assembly.md R88: DISCARD clears PENDING and nothing else; the bytes appended stay in the write bank. -/
def Obligations.DiscardDropsPending : Prop :=
  EncodedAs 0xD (fun w => w &&& 0xFFFFFFFF = 0xD0000000) (fun _ => .discard) ∧
  ∀ s : State,
    (s.status.getLsbD 23 = false → Completes .discard s fun t => Faults s t 2) ∧
    (s.status.getLsbD 23 = true →
      Completes .discard s fun t =>
        Responds s t 0 ∧ t.pending = 0 ∧
        SameStatusBut 11 11 s t ∧ SameBanks s t ∧ t.geom = s.geom ∧ SameEnv s t)

/-- 44_swap.md R90: DISPLAY inverts DISP_SEL and responds 1 when STRIDE = bufferSize, responds 0 when not, and clears STRIDE
and PENDING in both cases; no bank byte is copied or cleared. -/
def Obligations.DisplaySwapsFullFrame : Prop :=
  EncodedAs 0xE (fun w => w &&& 0xFFFFFFFF = 0xE0000000) (fun _ => .display) ∧
  ∀ s : State,
    (s.status.getLsbD 23 = false → Completes .display s fun t => Faults s t 2) ∧
    (s.status.getLsbD 23 = true → s.stride = specBufferSize s.geom →
      Completes .display s fun t =>
        Responds s t 1 ∧ t.status.getLsbD 22 = !s.status.getLsbD 22 ∧ t.stride = 0 ∧ t.pending = 0 ∧
        SameStatusBut 0 23 s t ∧ SameBanks s t ∧ t.geom = s.geom ∧ SameEnv s t) ∧
    (s.status.getLsbD 23 = true → s.stride ≠ specBufferSize s.geom →
      Completes .display s fun t =>
        Responds s t 0 ∧ t.stride = 0 ∧ t.pending = 0 ∧
        SameStatusBut 0 22 s t ∧ SameBanks s t ∧ t.geom = s.geom ∧ SameEnv s t)

/-! ### Encoding and decoding -/

/-- 30_encoding.md R57, R59: decoding the word of a well-formed command gives the command back, with every operand at every
value its field admits. -/
def Obligations.DecodeOfEncode : Prop := ∀ i : Instr, i.wf = true → decode (encode i) = .ok i

/-- 30_encoding.md R53, R57, decision D36 ("One legal word per operation"): a word that decodes is the word of the
command it decodes to, and that command is well formed. -/
def Obligations.EncodeOfDecode : Prop := ∀ (w : Word) (i : Instr), decode w = .ok i → i.wf = true ∧ encode i = w

/-- 30_encoding.md R53-R55, R57: the illegal words are exactly those with OP = 0xF, those that differ from their row's match
under its mask, and RDREG with REG = 3; each of them faults ILLEGAL in every state, with no other effect. -/
def Obligations.IllegalWordsAreExactly : Prop :=
  (∀ w : Word, (∃ why, decode w = .error why) → ∀ s, ∃ t, executeWord w s = .next t ∧ Faults s t 1) ∧
  ∀ w : Word, (∃ why, decode w = .error why) ↔
    (w.extractLsb' 28 4 = 0xF#4 ∨
      (w.extractLsb' 28 4 = 0x2#4 ∧ w.extractLsb' 0 2 = 3#2) ∨
      ∃ row ∈ [(0x0#4, 0xFFFFFFFF#32, 0x00000000#32), (0x1#4, 0xFF000000#32, 0x10000000#32),
        (0x2#4, 0xFFFFFFFC#32, 0x20000000#32), (0x3#4, 0xF7FFF800#32, 0x30000000#32),
        (0x4#4, 0xFFFFF800#32, 0x40000000#32), (0x5#4, 0xFFFFF800#32, 0x50000000#32),
        (0x6#4, 0xFFFFFE00#32, 0x60000000#32), (0x7#4, 0xFFFFFE00#32, 0x70000000#32),
        (0x8#4, 0xFF00F800#32, 0x80000000#32), (0x9#4, 0xF7FFF800#32, 0x90000000#32),
        (0xA#4, 0xFFFFFF00#32, 0xA0000000#32), (0xB#4, 0xFFFF0000#32, 0xB0000000#32),
        (0xC#4, 0xFFFFFFFF#32, 0xC0000000#32), (0xD#4, 0xFFFFFFFF#32, 0xD0000000#32),
        (0xE#4, 0xFFFFFFFF#32, 0xE0000000#32)],
        w.extractLsb' 28 4 = row.1 ∧ w &&& row.2.1 ≠ row.2.2)

/-- Words written out from 30_encoding.md R50 and R59, one for each format, and three illegal ones. -/
def Obligations.SpecWordsDecode : Prop :=
  decode 0x00000000 = .ok .nop ∧
  decode 0x10040302 = .ok (.config 2 3 4) ∧
  decode 0x20000002 = .ok (.rdreg 2) ∧
  decode 0x38000401 = .ok (.rdch .write 1 0 0 2) ∧
  decode 0x800A0441 = .ok (.wrch 1 0 1 2 10) ∧
  decode 0x900000C0 = .ok (.rdb .display 192) ∧
  decode 0xB00005AB = .ok (.appr 0xAB 5) ∧
  decode 0xE0000000 = .ok .display ∧
  decode 0xF0000000 = .error .reservedOpcode ∧
  decode 0x48000000 = .error .reservedBits ∧
  decode 0x20000003 = .error .noSuchRegister

/-! ### The step, the prelude, responses and faults -/

/-- 20_memory.md R38, 60_exceptions.md R105, 70_reset_and_hazards.md R107: a step takes the oldest event of the port. A word
that decodes runs its command, on the state without that event; an illegal word faults ILLEGAL; reset puts every
register at its reset value and nothing is answered; with nothing offered the block holds all state. That the port is a
list of events is the model's choice (assumption log 4), and so is the fresh draw of a reset (log 6). -/
def Obligations.StepRunsTheDecodedCommand : Prop :=
  ∀ (s : State) (rest : List PortEvent),
    (s.port = [] → step s = .next s) ∧
    (∀ w i, s.port = .command w :: rest → decode w = .ok i → step s = exec i { s with port := rest }) ∧
    (∀ w why, s.port = .command w :: rest → decode w = .error why →
      ∃ t, step s = .next t ∧ Faults { s with port := rest } t 1) ∧
    (s.port = .reset :: rest →
      ∃ t, step s = .next t ∧ t.geom = 0 ∧ t.status = 0 ∧ t.port = rest ∧ t.responses = s.responses ∧
        t.bitOrder = s.bitOrder)

/-- 10_state.md R32, the registers' column: GEOM and every field of STATE are 0 in the state after reset, and BANK[0] is the
display bank; and every bank byte holds its draw, the model's free value (assumption log 1). -/
def Obligations.ResetRegistersZero : Prop :=
  State.reset.geom = 0x00000000 ∧ State.reset.status = 0x00000000 ∧
  State.reset.stride = 0 ∧ State.reset.pending = 0 ∧ State.reset.DB = .bank0 ∧ State.reset.WB = .bank1 ∧
  ∀ b i, State.reset.byteAt b i = State.reset.unwritten b i

/-- 30_encoding.md R58: ILLEGAL first; then NOCFG for every command but NOP, CONFIG and RDREG while CFG_VALID = 0; then the
command's body. In every state, reachable or not. -/
def Obligations.PreludeOrder : Prop :=
  ∀ (w : Word) (s : State),
    (∀ why, decode w = .error why → ∃ t, executeWord w s = .next t ∧ Faults s t 1) ∧
    (∀ i, decode w = .ok i → isDataCommand i = true → s.status.getLsbD 23 = false →
      ∃ t, executeWord w s = .next t ∧ Faults s t 2) ∧
    (∀ i, decode w = .ok i → executeWord w s = exec i s)

/-- 30_encoding.md R52: every command word, in every state that meets the invariant, is answered by exactly one response;
CODE is 0 without a fault, 1..7 with one, and then DATA is 0; the result of a decode command stands in DATA[7:0]. -/
def Obligations.EveryWordIsAnsweredOnce : Prop :=
  ∀ (w : Word) (s : State), s.Inv → ∃ t r, executeWord w s = .next t ∧ t.responses = s.responses ++ [r] ∧
    (r.fault = false → r.code = 0) ∧ (r.fault = true → r.code ≠ 0 ∧ r.data = 0) ∧
    (∀ i, decode w = .ok i → isDecodeCommand i = true → r.data.toNat < 256)

/-- 60_exceptions.md R95: a command that answers a fault response of code k has set bit 24 + k of STATE, answered DATA 0 and
changed nothing else, and the block goes on: from a state that meets the invariant, every later word is executed too. -/
def Obligations.FaultHasNoOtherEffect : Prop :=
  ∀ (w : Word) (s t : State) (r : Response), executeWord w s = .next t → t.responses = s.responses ++ [r] →
    r.fault = true →
    (1 ≤ r.code.toNat ∧ r.code.toNat ≤ 7 ∧ r.data = 0 ∧ Faults s t r.code.toNat) ∧
    (s.Inv → ∀ w', ∃ u, executeWord w' t = .next u)

/-- 00_scope.md R5, 70_reset_and_hazards.md R119: from every state that meets the invariant, every sequence of command words
runs to its end without a stop, with one response each, in a state that meets the invariant. -/
def Obligations.EveryRunCompletes : Prop :=
  ∀ (ws : List Word) (s : State), s.Inv → ∃ t rs, runWords ws s = .next t ∧ t.Inv ∧
    t.responses = s.responses ++ rs ∧ rs.length = ws.length

/-! ### Invariants -/

/-- 10_state.md R25, R26: the invariant holds after reset. Its part on the canonical form of the banks' cells, and what
`Assembled` says of written cells, rest on the model's own form of a bank (assumption log 2). -/
def Obligations.ResetMeetsInvariant : Prop := State.reset.Inv ∧ State.reset.Assembled

/-- 10_state.md R26: the invariants hold after every command, and after a reset: every step keeps them, with the canonical
form of the banks' cells (assumption log 2). -/
def Obligations.EveryStepKeepsInvariant : Prop := ∀ s t : State, s.Inv → step s = .next t → t.Inv

/-- 44_swap.md R92, for each step: every byte below STRIDE + PENDING of the write bank has been written since reset. -/
def Obligations.EveryStepKeepsAssembled : Prop :=
  ∀ s t : State, s.Inv → s.Assembled → step s = .next t → t.Assembled

/-- 44_swap.md R92 ("after the first DISPLAY that returns 1, no decode command ever reads a reset-draw byte"): a DISPLAY
that swaps publishes a frame whose every byte has been written since reset, and every later command keeps it so. -/
def Obligations.PublishedFrameHoldsNoDraw : Prop :=
  ∀ (i : Instr) (s t : State), s.Ready → s.Assembled → exec i s = .next t →
    (s.FrameWritten ∨ (i = .display ∧ s.stride = specBufferSize s.geom)) → t.FrameWritten

/-- 20_memory.md R37 and assumption logs 3, 4 and 6 (the model's own fields): no command changes BIT_ORDER, the draw in force
or the events still to come. -/
def Obligations.CommandsKeepTheEnvironment : Prop :=
  ∀ (i : Instr) (s t : State), exec i s = .next t → SameEnv s t

/-! ### Who writes what -/

/-- 10_state.md R24: a sticky bit once set stays set through every command; it comes to be set only by a fault of its own
code, which always sets it; a command that does not fault leaves all seven; reset clears them. -/
def Obligations.FaultBitsAreSticky : Prop :=
  (∀ (w : Word) (s t : State) (k : Nat), 1 ≤ k → k ≤ 7 → executeWord w s = .next t →
    (s.status.getLsbD (24 + k) = true → t.status.getLsbD (24 + k) = true) ∧
    (∀ r, t.responses = s.responses ++ [r] →
      (r.fault = false → t.status.getLsbD (24 + k) = s.status.getLsbD (24 + k)) ∧
      (r.fault = true → r.code.toNat = k → t.status.getLsbD (24 + k) = true) ∧
      (s.status.getLsbD (24 + k) = false → t.status.getLsbD (24 + k) = true → r.fault = true ∧ r.code.toNat = k))) ∧
  ∀ (s : State) (rest : List PortEvent), s.port = .reset :: rest →
    ∃ t, step s = .next t ∧ ∀ k, 1 ≤ k → k ≤ 7 → t.status.getLsbD (24 + k) = false

/-- 10_state.md R25: STATE bit 24 and GEOM bits [31:24] are never written, and read 0 in every state that meets the
invariant. -/
def Obligations.ReservedBitsNeverWritten : Prop :=
  ∀ (w : Word) (s t : State), executeWord w s = .next t →
    t.status.getLsbD 24 = s.status.getLsbD 24 ∧ t.geom.extractLsb' 24 8 = s.geom.extractLsb' 24 8 ∧
    (s.Inv → t.status.getLsbD 24 = false ∧ t.geom.extractLsb' 24 8 = 0)

/-- 70_reset_and_hazards.md R117, 10_state.md R16, R23: no command clears CFG_VALID, none but a CONFIG that responds 0 while
CFG_VALID = 0 changes GEOM or CFG_VALID, and a CONFIG while CFG_VALID = 1 faults RECONFIG and changes nothing. -/
def Obligations.GeometryFixedUntilReset : Prop :=
  ∀ (i : Instr) (s t : State), exec i s = .next t →
    (s.status.getLsbD 23 = true → t.geom = s.geom ∧ t.status.getLsbD 23 = true) ∧
    ((t.geom ≠ s.geom ∨ t.status.getLsbD 23 ≠ s.status.getLsbD 23) →
      s.status.getLsbD 23 = false ∧ Responds s t 0 ∧ ∃ side count size, i = .config side count size) ∧
    (s.status.getLsbD 23 = true → ∀ side count size, i = .config side count size → Faults s t 4)

/-- 10_state.md R22: DISP_SEL is inverted by a DISPLAY with STRIDE = bufferSize (on a configured block) and by nothing else;
DB and WB are the two different banks it names; no command copies or changes a byte of a bank when it inverts it. -/
def Obligations.OnlyFullDisplayInvertsSelect : Prop :=
  (∀ s : State, s.DB = (if s.status.getLsbD 22 then .bank1 else .bank0) ∧
    s.WB = (if s.status.getLsbD 22 then .bank0 else .bank1)) ∧
  ∀ (i : Instr) (s t : State), exec i s = .next t →
    (t.status.getLsbD 22 ≠ s.status.getLsbD 22 ↔
      i = .display ∧ s.status.getLsbD 23 = true ∧ s.stride = specBufferSize s.geom) ∧
    (t.status.getLsbD 22 ≠ s.status.getLsbD 22 → SameBanks s t)

/-- 10_state.md R20: only COMMIT and DISPLAY write STRIDE: COMMIT adds PENDING when the sum fits, DISPLAY sets 0, a fault
leaves it; 10_state.md R21 and 70_reset_and_hazards.md R111: PENDING survives every command but COMMIT, DISCARD and
DISPLAY, which clear it, and grows only by appends. -/
def Obligations.CursorWriters : Prop :=
  ∀ (i : Instr) (s t : State), s.Ready → exec i s = .next t →
    (i = .commit → t.stride = s.stride + s.pending) ∧ (i = .display → t.stride = 0) ∧
    (i ≠ .commit → i ≠ .display → t.stride = s.stride) ∧
    (i = .commit ∨ i = .discard ∨ i = .display → t.pending = 0) ∧
    (i ≠ .commit → i ≠ .discard → i ≠ .display → s.pending ≤ t.pending) ∧
    (t.pending ≠ s.pending → i = .commit ∨ i = .discard ∨ i = .display ∨ (∃ b, i = .appb b) ∨ ∃ b n, i = .appr b n) ∧
    (∀ k, Faults s t k → t.stride = s.stride ∧ t.pending = s.pending) ∧
    t.stride + t.pending ≤ specBufferSize t.geom

/-- 10_state.md R27, 43_assembly.md R89: no command writes the display bank; only WRCH, APPB and APPR write the write bank;
APPB and APPR write nothing below STRIDE + PENDING and nothing from bufferSize up (10_state.md R28). -/
def Obligations.WhichBytesCommandsWrite : Prop :=
  ∀ (i : Instr) (s t : State), s.Inv → exec i s = .next t →
    (∀ j, t.byteAt s.DB j = s.byteAt s.DB j) ∧
    (∀ j, t.byteAt s.WB j ≠ s.byteAt s.WB j →
      j < specBufferSize s.geom ∧
      ((∃ x y z ch v, i = .wrch x y z ch v ∧ j = s.specByte x y z ch.toNat) ∨
        (((∃ b, i = .appb b) ∨ ∃ b n, i = .appr b n) ∧ s.stride + s.pending ≤ j)))

/-- 41_decode.md R80: a decode command changes no state but the sticky bit of a fault it raises, which is NOCFG, COORD or
RANGE. -/
def Obligations.DecodeCommandsAreReadOnly : Prop :=
  ∀ (i : Instr) (s t : State), isDecodeCommand i = true → exec i s = .next t →
    (∃ d, OnlyResponds s t d) ∨ Faults s t 2 ∨ Faults s t 5 ∨ Faults s t 7

/-! ### The double buffer -/

/-- 20_memory.md R39: what a decode command of the display bank answers depends on nothing but GEOM, CFG_VALID, BIT_ORDER
and the frame bytes of the display bank: never on a write-bank byte, on STRIDE or on PENDING. -/
def Obligations.DecodeSeesOnlyThePublishedFrame : Prop :=
  ∀ (i : Instr) (s s' : State), readsDisplay i = true → s.Inv → s'.Inv →
    s'.geom = s.geom → s'.bitOrder = s.bitOrder → s'.status.getLsbD 23 = s.status.getLsbD 23 →
    (∀ j < specBufferSize s.geom, s'.byteAt s'.DB j = s.byteAt s.DB j) →
    ∃ t t' r, exec i s = .next t ∧ exec i s' = .next t' ∧
      t.responses = s.responses ++ [r] ∧ t'.responses = s'.responses ++ [r]

/-- 44_swap.md R91: along a run of commands in which DISP_SEL is never inverted, whatever appends, commits, discards, WRCHs
and failed DISPLAYs it holds, every byte of the display bank stays as it is. -/
def Obligations.FrameStaysUntilNextSwap : Prop :=
  ∀ (is : List Instr) (s t : State), runInstrs is s = .next t →
    (∀ (pre : List Instr) (u : State), pre <+: is → runInstrs pre s = .next u →
      u.status.getLsbD 22 = s.status.getLsbD 22) →
    t.DB = s.DB ∧ ∀ j, t.byteAt t.DB j = s.byteAt s.DB j

/-- 44_swap.md R91, 70_reset_and_hazards.md R112: after a DISPLAY that responds 1 the display bank holds what the write bank
held just before it, and the write bank holds the previous display frame. -/
def Obligations.SwapExchangesTheBanks : Prop :=
  ∀ s t : State, s.status.getLsbD 23 = true → exec .display s = .next t → Responds s t 1 →
    t.DB = s.WB ∧ t.WB = s.DB ∧ (∀ j, t.byteAt t.DB j = s.byteAt s.WB j) ∧ ∀ j, t.byteAt t.WB j = s.byteAt s.DB j

/-- 43_assembly.md R89, 44_swap.md R93: from a configured state with STRIDE = PENDING = 0, any run of commands without a
DISPLAY leaves STRIDE at the sum of the PENDING values its COMMITs committed; that sum never exceeds bufferSize; and a
DISPLAY then responds 1 and swaps exactly when the sum is bufferSize, and else responds 0 without a swap. -/
def Obligations.DisplaySucceedsOnFullSum : Prop :=
  ∀ (is : List Instr) (s t : State), s.Ready → s.stride = 0 → s.pending = 0 → (∀ i ∈ is, i ≠ .display) →
    runInstrs is s = .next t →
    t.stride = committedBy is s ∧ committedBy is s ≤ specBufferSize s.geom ∧
    Completes .display t fun u =>
      u.stride = 0 ∧
      (committedBy is s = specBufferSize s.geom →
        Responds t u 1 ∧ u.status.getLsbD 22 = !t.status.getLsbD 22) ∧
      (committedBy is s < specBufferSize s.geom →
        Responds t u 0 ∧ u.status.getLsbD 22 = t.status.getLsbD 22)

/-- 44_swap.md R92 ("No byte of a published frame is left over from an earlier frame or from the reset draw"): two runs of
the same commands without a DISPLAY, from configured states that agree on GEOM, STATE and BIT_ORDER with STRIDE =
PENDING = 0 and may differ in every bank byte, end with the same write-bank frame if STRIDE reaches bufferSize. -/
def Obligations.FrameIndependentOfOldBytes : Prop :=
  ∀ (is : List Instr) (s s' t t' : State), s.Ready → s'.Ready →
    s'.geom = s.geom → s'.status = s.status → s'.bitOrder = s.bitOrder → s.stride = 0 → s.pending = 0 →
    (∀ i ∈ is, i ≠ .display) → runInstrs is s = .next t → runInstrs is s' = .next t' →
    t'.status = t.status ∧
    (t.stride = specBufferSize t.geom → ∀ j < specBufferSize t.geom, t'.byteAt t'.WB j = t.byteAt t.WB j)

/-- 43_assembly.md R86: a RAW chunk appends its 8 bytes, and a COMPRESSED chunk its four runs one after another, from
STRIDE + PENDING on, truncated at bufferSize; PENDING grows by the bytes written. -/
def Obligations.ChunksAppendTheirBytes : Prop :=
  ∀ s : State, s.Ready →
    (∀ p : RawPayload, ∃ t, runInstrs (raw8 p) s = .next t ∧ Appends s t p.bytes.toList) ∧
    (∀ p : RunPayload, ∃ t, runInstrs (rle4 p) s = .next t ∧
      Appends s t (p.pairs.toList.flatMap fun q => List.replicate q.2.toNat q.1))

/-- 70_reset_and_hazards.md R108, 30_encoding.md R60: `FILL v, bufferSize`, `COMMIT`, `DISPLAY` from an empty assembly
publishes a frame of v, and the DISPLAY responds 1. -/
def Obligations.FillCommitDisplayPublishes : Prop :=
  ∀ (v : Byte) (s : State), s.Ready → s.stride = 0 → s.pending = 0 →
    ∃ t, runInstrs (fill v s.bufferSize ++ [.commit, .display]) s = .next t ∧ t.DB = s.WB ∧
      (∀ j < specBufferSize s.geom, t.byteAt t.DB j = v) ∧
      t.responses.getLast? = some { fault := false, code := 0, data := 1 }

/-! ### The codec -/

/-- 20_memory.md R36: in every legal geometry a channel of a voxel inside the cube lies wholly inside one byte of the packed
frame, at a multiple of channelSize. -/
def Obligations.ChannelInsideOneByte : Prop :=
  ∀ (side count size x y z c : Nat),
    1 ≤ side → side ≤ 8 → 1 ≤ count → count ≤ 3 → size ∈ [1, 2, 4, 8] → x < side → y < side → z < side → c < count →
    size ∣ bitInByte (bitOffset count size (voxelIndex side x y z) c) ∧
    bitInByte (bitOffset count size (voxelIndex side x y z) c) + size ≤ 8 ∧
    byteIndex (bitOffset count size (voxelIndex side x y z) c) < frameBytes side count size ∧
    8 * byteIndex (bitOffset count size (voxelIndex side x y z) c) +
      bitInByte (bitOffset count size (voxelIndex side x y z) c) =
      (z * side ^ 2 + y * side + x) * count * size + c * size

/-- 10_state.md R17: bufferSize is 1..1536 in every configured state, and 0 while GEOM = 0. -/
def Obligations.BufferSizeRange : Prop :=
  (∀ s : State, s.Ready → 1 ≤ s.bufferSize ∧ s.bufferSize ≤ 1536 ∧ s.bufferSize = specBufferSize s.geom) ∧
  ∀ s : State, s.Inv → s.status.getLsbD 23 = false → s.bufferSize = 0

/-- 41_decode.md R71: for every legal channelSize the brightness is raw·255/channelMaxValue exactly, 0 at 0, 255 at
channelMaxValue, strictly increasing and 0..255; the multipliers are 255, 85, 17 and 1. -/
def Obligations.BrightnessLaws : Prop :=
  (∀ raw, toBrightness 1 raw = 255 * raw ∧ toBrightness 2 raw = 85 * raw ∧ toBrightness 4 raw = 17 * raw ∧
    toBrightness 8 raw = raw) ∧
  ∀ (size raw raw' : Nat), size ∈ [1, 2, 4, 8] → raw < raw' → raw' ≤ 2 ^ size - 1 →
    toBrightness size raw * (2 ^ size - 1) = raw * 255 ∧
    toBrightness size 0 = 0 ∧ toBrightness size (2 ^ size - 1) = 255 ∧
    toBrightness size raw < toBrightness size raw' ∧ toBrightness size raw' ≤ 255

/-- 42_encode.md R83: after a WRCH of v, RDCH.W at the same channel responds v; and if a DISPLAY then swaps the banks, RDCH
(S = 0) responds v. For every legal geometry and either bit order. -/
def Obligations.WrchThenRdchReturnsValue : Prop :=
  ∀ (x y z : BitVec 3) (ch : BitVec 2) (v : BitVec 8) (s : State), s.Ready → s.InCube x y z →
    ch.toNat < channelCountOf s.geom → v.toNat ≤ 2 ^ channelSizeOf s.geom - 1 →
    ∃ t, exec (.wrch x y z ch v) s = .next t ∧
      (Completes (.rdch .write x y z ch) t fun u => OnlyResponds t u (v.setWidth 32)) ∧
      (s.stride = specBufferSize s.geom →
        ∃ u, exec .display t = .next u ∧ Responds t u 1 ∧
          Completes (.rdch .display x y z ch) u fun q => OnlyResponds u q (v.setWidth 32))

/-- 42_encode.md R83 ("WRCH at one location leaves every other location's raw value unchanged"), in either bank. -/
def Obligations.WrchLeavesOtherChannels : Prop :=
  ∀ (x y z x' y' z' : BitVec 3) (ch ch' : BitVec 2) (v : BitVec 8) (s t : State), s.Ready →
    s.InCube x y z → s.InCube x' y' z' → ch.toNat < channelCountOf s.geom → ch'.toNat < channelCountOf s.geom →
    (x, y, z, ch) ≠ (x', y', z', ch') → exec (.wrch x y z ch v) s = .next t →
    ∀ b, t.specRaw b x' y' z' ch'.toNat = s.specRaw b x' y' z' ch'.toNat

/-- 20_memory.md R44, decision D37: WRCH never changes a padding bit of the frame's last byte: a bit at an offset of
side³·count·size or more (LSB_FIRST numbering of offsets; MSB_FIRST counts from the byte's other end). -/
def Obligations.WrchKeepsPaddingBits : Prop :=
  ∀ (x y z : BitVec 3) (ch : BitVec 2) (v : BitVec 8) (s t : State) (b : BankId) (i j : Nat), s.Ready →
    exec (.wrch x y z ch v) s = .next t → j < 8 →
    cubeSideOf s.geom ^ 3 * channelCountOf s.geom * channelSizeOf s.geom ≤
      8 * i + (match s.bitOrder with | .lsbFirst => j | .msbFirst => 7 - j) →
    (t.byteAt b i).getLsbD j = (s.byteAt b i).getLsbD j
end

