-- ==== Sys2Proof/Laws/PerInstr.lean ====
section
/-! SUPPORT. Facts of every command as syntax, one lemma per constructor of Instr: the bits of a command's word that its
row of the opcode table fixes are what the row says (30_encoding.md R53). -/

namespace Sys2Proof.Laws.FixedBits

/-- The word of a command agrees with its row's match under its row's mask. -/
def Statement (i : Instr) : Prop := encode i &&& i.op.mask = i.op.pattern

/-- Two words are equal when their 32 bits are. -/
theorem word_ext {v w : Word} (h : ∀ i < 32, v.getLsbD i = w.getLsbD i) : v = w :=
  BitVec.eq_of_getLsbD_eq fun i hi => h i hi

theorem nop : Statement .nop := by unfold Statement; decide

theorem config (side count size : BitVec 8) : Statement (.config side count size) := by
  refine word_ext fun i hi => ?_
  simp only [encode, place, Instr.op, Op.mask, Op.pattern]
  interval_cases i <;> simp

theorem rdreg (reg : BitVec 2) : Statement (.rdreg reg) := by
  refine word_ext fun i hi => ?_
  simp only [encode, place, Instr.op, Op.mask, Op.pattern]
  interval_cases i <;> simp

theorem rdch (sel : BankSel) (x y z : BitVec 3) (ch : BitVec 2) : Statement (.rdch sel x y z ch) := by
  refine word_ext fun i hi => ?_
  cases sel <;> simp only [encode, place, placeVoxel, BankSel.bit, Instr.op, Op.mask, Op.pattern] <;> interval_cases i <;> simp

theorem gcb (x y z : BitVec 3) (ch : BitVec 2) : Statement (.gcb x y z ch) := by
  refine word_ext fun i hi => ?_
  simp only [encode, place, placeVoxel, Instr.op, Op.mask, Op.pattern]
  interval_cases i <;> simp

theorem gcs (x y z : BitVec 3) (ch : BitVec 2) : Statement (.gcs x y z ch) := by
  refine word_ext fun i hi => ?_
  simp only [encode, place, placeVoxel, Instr.op, Op.mask, Op.pattern]
  interval_cases i <;> simp

theorem gvb (x y z : BitVec 3) : Statement (.gvb x y z) := by
  refine word_ext fun i hi => ?_
  simp only [encode, place, placeVoxel, Instr.op, Op.mask, Op.pattern]
  interval_cases i <;> simp

theorem gvs (x y z : BitVec 3) : Statement (.gvs x y z) := by
  refine word_ext fun i hi => ?_
  simp only [encode, place, placeVoxel, Instr.op, Op.mask, Op.pattern]
  interval_cases i <;> simp

theorem wrch (x y z : BitVec 3) (ch : BitVec 2) (value : BitVec 8) : Statement (.wrch x y z ch value) := by
  refine word_ext fun i hi => ?_
  simp only [encode, place, placeVoxel, Instr.op, Op.mask, Op.pattern]
  interval_cases i <;> simp

theorem rdb (sel : BankSel) (idx : BitVec 11) : Statement (.rdb sel idx) := by
  refine word_ext fun i hi => ?_
  cases sel <;> simp only [encode, place, BankSel.bit, Instr.op, Op.mask, Op.pattern] <;> interval_cases i <;> simp

theorem appb (byte : BitVec 8) : Statement (.appb byte) := by
  refine word_ext fun i hi => ?_
  simp only [encode, place, Instr.op, Op.mask, Op.pattern]
  interval_cases i <;> simp

theorem appr (byte run : BitVec 8) : Statement (.appr byte run) := by
  refine word_ext fun i hi => ?_
  simp only [encode, place, Instr.op, Op.mask, Op.pattern]
  interval_cases i <;> simp

theorem commit : Statement .commit := by unfold Statement; decide

theorem discard : Statement .discard := by unfold Statement; decide

theorem display : Statement .display := by unfold Statement; decide

end Sys2Proof.Laws.FixedBits
end

