-- ==== Sys2Proof/Laws/Decode.lean ====
section
/-! SUPPORT. What decoding a word can answer (30_encoding.md R57), and the opcode of a command's word. -/

namespace Sys2Proof

/-- The OP value of a command (30_encoding.md R49). -/
def Op.codeOf : Op → Nat
  | .nop => 0x0
  | .config => 0x1
  | .rdreg => 0x2
  | .rdch => 0x3
  | .gcb => 0x4
  | .gcs => 0x5
  | .gvb => 0x6
  | .gvs => 0x7
  | .wrch => 0x8
  | .rdb => 0x9
  | .appb => 0xA
  | .appr => 0xB
  | .commit => 0xC
  | .discard => 0xD
  | .display => 0xE

theorem Op.ofCode_codeOf (op : Op) : Op.ofCode op.codeOf = some op := by cases op <;> rfl

theorem Op.ofCode_eq_some {n : Nat} {op : Op} (h : Op.ofCode n = some op) : n = op.codeOf := by
  unfold Op.ofCode at h
  split at h <;> cases h <;> rfl

/-- The opcode stands inside every row's mask: a word that agrees with a row's match has the row's OP. -/
theorem fieldOP_of_match {w : Word} {op : Op} (h : w &&& op.mask = op.pattern) : (fieldOP w).toNat = op.codeOf := by
  have hm : fieldOP w = fieldOP (w &&& op.mask) := by
    have h15 : fieldOP op.mask = 15#4 := by cases op <;> decide
    apply BitVec.eq_of_getLsbD_eq
    intro i hi
    have hbit : op.mask.getLsbD (28 + i) = true := by
      have : (fieldOP op.mask).getLsbD i = op.mask.getLsbD (28 + i) := by
        simp [fieldOP, hi]
      rw [← this, h15]
      interval_cases i <;> decide
    simp only [fieldOP, BitVec.getLsbD_extractLsb', BitVec.getLsbD_and, hbit, Bool.and_true]
  rw [hm, h]
  cases op <;> decide

/-- A word that agrees with its row decodes by the row's fields, but for RDREG with REG = 3. -/
theorem decode_of_match {w : Word} {op : Op} (h : w &&& op.mask = op.pattern)
    (hr : ¬ (op = .rdreg ∧ fieldREG w = 3)) : decode w = .ok (op.read w) := by
  simp only [decode, fieldOP_of_match h, Op.ofCode_codeOf]
  rw [if_neg (not_not.2 h), if_neg hr]

/-- A word that decodes agrees with its row, whose fields it gives, and is no RDREG of register 3. -/
theorem decode_ok {w : Word} {i : Instr} (h : decode w = .ok i) :
    ∃ op : Op, w &&& op.mask = op.pattern ∧ ¬ (op = .rdreg ∧ fieldREG w = 3) ∧ i = op.read w := by
  unfold decode at h
  split at h
  · cases h
  · rename_i op _
    split at h
    · cases h
    · split at h
      · cases h
      · cases h; exact ⟨op, by simpa using ‹¬ (w &&& _ ≠ _)›, ‹_›, rfl⟩

end Sys2Proof
end

