-- ==== Sys2Proof/Laws/Memory.lean ====
section
/-! SUPPORT. The cells of a bank: reading after a write, and the canonical form kept by every write. -/

namespace Sys2Proof.Machine

@[simp] theorem lookup_nil (i : Nat) : lookup [] i = none := rfl

/-- Read after write. -/
theorem lookup_store (m : Memory) (i : Nat) (v : Byte) (j : Nat) :
    lookup (store m i v) j = if i = j then some v else lookup m j := by
  induction m with
  | nil => simp [store, lookup]
  | cons c m ih =>
    obtain ⟨a, u⟩ := c
    unfold store
    split
    · simp [lookup]
    · split
      · subst i; simp only [lookup]; split <;> rfl
      · simp only [lookup, ih]
        by_cases h : a = j
        · have : i ≠ j := by omega
          simp [h, this]
        · simp [h]

@[simp] theorem lookup_store_same (m : Memory) (i : Nat) (v : Byte) : lookup (store m i v) i = some v := by
  simp [lookup_store]

theorem lookup_store_other (m : Memory) {i j : Nat} (v : Byte) (h : i ≠ j) :
    lookup (store m i v) j = lookup m j := by
  simp [lookup_store, h]

/-- Read after a run of writes. -/
theorem lookup_storeRun (m : Memory) (p : Nat) (v : Byte) (n j : Nat) :
    lookup (storeRun m p v n) j = if p ≤ j ∧ j < p + n then some v else lookup m j := by
  induction n with
  | zero => simp [storeRun]
  | succ n ih =>
    rw [storeRun, lookup_store, ih]
    by_cases h1 : p + n = j
    · have : p ≤ j ∧ j < p + (n + 1) := by omega
      simp [h1, this]
    · by_cases h2 : p ≤ j ∧ j < p + n
      · have : p ≤ j ∧ j < p + (n + 1) := by omega
        simp [h1, h2, this]
      · have : ¬ (p ≤ j ∧ j < p + (n + 1)) := by omega
        simp [h1, h2, this]

/-- A write never unlists an index. -/
theorem isSome_lookup_store (m : Memory) (i : Nat) (v : Byte) (j : Nat) (h : (lookup m j).isSome = true) :
    (lookup (store m i v) j).isSome = true := by
  rw [lookup_store]; split <;> simp [h]

theorem risingFrom_mono {lo lo' : Nat} (h : lo' ≤ lo) (m : Memory) (hm : risingFrom lo m = true) :
    risingFrom lo' m = true := by
  cases m with
  | nil => rfl
  | cons c m =>
    simp only [risingFrom, Bool.and_eq_true, decide_eq_true_eq] at hm ⊢
    exact ⟨⟨by omega, hm.1.2⟩, hm.2⟩

theorem risingFrom_store (m : Memory) (lo i : Nat) (v : Byte) (hlo : lo ≤ i) (hi : i < Config.bankBytes)
    (hm : risingFrom lo m = true) : risingFrom lo (store m i v) = true := by
  induction m generalizing lo with
  | nil => simp [store, risingFrom, hlo, hi]
  | cons c m ih =>
    obtain ⟨a, u⟩ := c
    simp only [risingFrom, Bool.and_eq_true, decide_eq_true_eq] at hm
    unfold store
    split
    · simp only [risingFrom, Bool.and_eq_true, decide_eq_true_eq]
      exact ⟨⟨hlo, hi⟩, ⟨by omega, hm.1.2⟩, hm.2⟩
    · split
      · subst i
        simp only [risingFrom, Bool.and_eq_true, decide_eq_true_eq]
        exact ⟨⟨hlo, hi⟩, hm.2⟩
      · simp only [risingFrom, Bool.and_eq_true, decide_eq_true_eq]
        exact ⟨hm.1, ih (a + 1) (by omega) hm.2⟩

/-- A write inside the bank keeps the canonical form. -/
theorem wf_store (m : Memory) (i : Nat) (v : Byte) (hi : i < Config.bankBytes) (hm : Memory.wf m = true) :
    Memory.wf (store m i v) = true := risingFrom_store m 0 i v (Nat.zero_le i) hi hm

/-- A run of writes inside the bank keeps the canonical form. -/
theorem wf_storeRun (m : Memory) (p : Nat) (v : Byte) (n : Nat) (hn : n = 0 ∨ p + n ≤ Config.bankBytes)
    (hm : Memory.wf m = true) : Memory.wf (storeRun m p v n) = true := by
  induction n with
  | zero => exact hm
  | succ n ih => exact wf_store _ _ _ (by omega) (ih (by omega))

@[simp] theorem wf_nil : Memory.wf [] = true := rfl

/-- Nothing is listed outside the bank. -/
theorem lookup_of_lt {lo : Nat} (m : Memory) (hm : risingFrom lo m = true) {i : Nat} (h : i < lo) :
    lookup m i = none := by
  induction m generalizing lo with
  | nil => rfl
  | cons c m ih =>
    obtain ⟨a, u⟩ := c
    simp only [risingFrom, Bool.and_eq_true, decide_eq_true_eq] at hm
    have : a ≠ i := by omega
    rw [lookup, if_neg this]
    exact ih hm.2 (by omega)

/-- Equal memories are equal data: two canonical lists that read alike at every index are the same list. -/
theorem memory_ext {lo : Nat} (m m' : Memory) (hm : risingFrom lo m = true) (hm' : risingFrom lo m' = true)
    (h : ∀ i, lookup m i = lookup m' i) : m = m' := by
  induction m generalizing lo m' with
  | nil =>
    cases m' with
    | nil => rfl
    | cons c m' => have := h c.1; simp [lookup] at this
  | cons c m ih =>
    obtain ⟨a, u⟩ := c
    cases m' with
    | nil => have := h a; simp [lookup] at this
    | cons c' m' =>
      obtain ⟨b, w⟩ := c'
      simp only [risingFrom, Bool.and_eq_true, decide_eq_true_eq] at hm hm'
      have hab : a = b := by
        rcases Nat.lt_trichotomy a b with hlt | heq | hgt
        · have h1 := h a
          rw [lookup, if_pos rfl, lookup, if_neg (by omega), lookup_of_lt m' hm'.2 (by omega)] at h1
          cases h1
        · exact heq
        · have h1 := h b
          rw [lookup, if_neg (by omega), lookup_of_lt m hm.2 (by omega), lookup, if_pos rfl] at h1
          cases h1
      subst b
      have huw : u = w := by have h1 := h a; simpa [lookup] using h1
      subst w
      congr 1
      apply ih m' hm.2 hm'.2
      intro i
      by_cases hi : a = i
      · subst hi; rw [lookup_of_lt m hm.2 (by omega), lookup_of_lt m' hm'.2 (by omega)]
      · have h1 := h i; simpa [lookup, hi] using h1

/-- The banks after reset have the canonical form. -/
theorem wf_reset : Memory.wf State.reset.bank0 = true ∧ Memory.wf State.reset.bank1 = true := ⟨rfl, rfl⟩

end Sys2Proof.Machine
end

