-- ==== Sys2Proof/Laws/Flags.lean ====
section
/-! SUPPORT. Reading a field of a word after a field of it is written: the fields of STATE (10_state.md R19) and its sticky
bits (R24). -/

namespace Sys2Proof.Machine

theorem getLsbD_insertField (w : Word) (lo : Nat) {n : Nat} (v : BitVec n) (h : lo + n ≤ 32) (i : Nat) :
    (insertField w lo v).getLsbD i = if lo ≤ i ∧ i < lo + n then v.getLsbD (i - lo) else w.getLsbD i := by
  unfold insertField
  simp only [BitVec.getLsbD_or, BitVec.getLsbD_and, BitVec.getLsbD_not, BitVec.getLsbD_shiftLeft,
    BitVec.getLsbD_setWidth, BitVec.getLsbD_allOnes]
  by_cases hi : i < 32
  · by_cases h1 : lo ≤ i
    · by_cases h2 : i < lo + n
      · have : i - lo < n := by omega
        have : ¬ i < lo := by omega
        have : i - lo < 32 := by omega
        simp [*]
      · have h3 : ¬ i - lo < n := by omega
        have : v.getLsbD (i - lo) = false := BitVec.getLsbD_of_ge _ _ (by omega)
        simp [*]
    · have : i < lo := by omega
      simp [*]
  · have h1 : w.getLsbD i = false := BitVec.getLsbD_of_ge _ _ (by omega)
    have h2 : ¬ i < lo + n := by omega
    simp [hi, h1, h2]

/-- A field written is read back. -/
theorem extract_insertField_same (w : Word) (lo : Nat) {n : Nat} (v : BitVec n) (h : lo + n ≤ 32) :
    (insertField w lo v).extractLsb' lo n = v := by
  apply BitVec.eq_of_getLsbD_eq
  intro i hi
  rw [BitVec.getLsbD_extractLsb', getLsbD_insertField w lo v h]
  simp [hi]

/-- A field apart from the one written is read as before. -/
theorem extract_insertField_apart (w : Word) (lo : Nat) {n : Nat} (v : BitVec n) (h : lo + n ≤ 32) (lo' n' : Nat)
    (apart : lo' + n' ≤ lo ∨ lo + n ≤ lo') :
    (insertField w lo v).extractLsb' lo' n' = w.extractLsb' lo' n' := by
  apply BitVec.eq_of_getLsbD_eq
  intro i hi
  rw [BitVec.getLsbD_extractLsb', BitVec.getLsbD_extractLsb', getLsbD_insertField w lo v h]
  have : ¬ (lo ≤ lo' + i ∧ lo' + i < lo + n) := by omega
  simp [this]

/-! ### STRIDE, PENDING, DISP_SEL, CFG_VALID -/

theorem getLsbD_setStride (w : Word) (n i : Nat) :
    (setStride w n).getLsbD i = if i < 11 then (BitVec.ofNat 11 n).getLsbD i else w.getLsbD i := by
  simp [setStride, getLsbD_insertField]

theorem getLsbD_setPending (w : Word) (n i : Nat) :
    (setPending w n).getLsbD i =
      if 11 ≤ i ∧ i < 22 then (BitVec.ofNat 11 n).getLsbD (i - 11) else w.getLsbD i := by
  simp [setPending, getLsbD_insertField]

theorem getLsbD_setDispSel (w : Word) (b : Bool) (i : Nat) :
    (setDispSel w b).getLsbD i = if i = 22 then b else w.getLsbD i := by
  rw [setDispSel, getLsbD_insertField _ _ _ (by omega)]
  by_cases h : i = 22
  · subst h; simp
  · have : ¬ (22 ≤ i ∧ i < 22 + 1) := by omega
    simp [h, this]

theorem getLsbD_setCfgValid (w : Word) (b : Bool) (i : Nat) :
    (setCfgValid w b).getLsbD i = if i = 23 then b else w.getLsbD i := by
  rw [setCfgValid, getLsbD_insertField _ _ _ (by omega)]
  by_cases h : i = 23
  · subst h; simp
  · have : ¬ (23 ≤ i ∧ i < 23 + 1) := by omega
    simp [h, this]

theorem FaultCode.bit_range (c : FaultCode) : 25 ≤ c.bit ∧ c.bit ≤ 31 := by cases c <;> decide

theorem getLsbD_setSticky (w : Word) (c : FaultCode) (i : Nat) :
    (setSticky w c).getLsbD i = (w.getLsbD i || decide (i = 24 + c.number)) := by
  have hb := c.bit_range
  rw [setSticky, getLsbD_insertField _ _ _ (by omega)]
  by_cases h : i = c.bit
  · subst h; simp [FaultCode.bit]
  · have h1 : ¬ (c.bit ≤ i ∧ i < c.bit + 1) := by omega
    have h2 : ¬ i = 24 + c.number := h
    rw [if_neg h1]; simp [h2]

@[simp] theorem strideOf_setStride (w : Word) (n : Nat) : strideOf (setStride w n) = n % 2048 := by
  simp [strideOf, setStride, extract_insertField_same]

@[simp] theorem pendingOf_setStride (w : Word) (n : Nat) : pendingOf (setStride w n) = pendingOf w := by
  simp [pendingOf, setStride, extract_insertField_apart]

@[simp] theorem dispSelOf_setStride (w : Word) (n : Nat) : dispSelOf (setStride w n) = dispSelOf w := by
  simp only [dispSelOf, getLsbD_setStride]; simp

@[simp] theorem cfgValidOf_setStride (w : Word) (n : Nat) : cfgValidOf (setStride w n) = cfgValidOf w := by
  simp only [cfgValidOf, getLsbD_setStride]; simp

@[simp] theorem strideOf_setPending (w : Word) (n : Nat) : strideOf (setPending w n) = strideOf w := by
  simp [strideOf, setPending, extract_insertField_apart]

@[simp] theorem pendingOf_setPending (w : Word) (n : Nat) : pendingOf (setPending w n) = n % 2048 := by
  simp [pendingOf, setPending, extract_insertField_same]

@[simp] theorem dispSelOf_setPending (w : Word) (n : Nat) : dispSelOf (setPending w n) = dispSelOf w := by
  simp only [dispSelOf, getLsbD_setPending]; simp

@[simp] theorem cfgValidOf_setPending (w : Word) (n : Nat) : cfgValidOf (setPending w n) = cfgValidOf w := by
  simp only [cfgValidOf, getLsbD_setPending]; simp

@[simp] theorem strideOf_setDispSel (w : Word) (b : Bool) : strideOf (setDispSel w b) = strideOf w := by
  simp [strideOf, setDispSel, extract_insertField_apart]

@[simp] theorem pendingOf_setDispSel (w : Word) (b : Bool) : pendingOf (setDispSel w b) = pendingOf w := by
  simp [pendingOf, setDispSel, extract_insertField_apart]

@[simp] theorem dispSelOf_setDispSel (w : Word) (b : Bool) : dispSelOf (setDispSel w b) = b := by
  simp only [dispSelOf, getLsbD_setDispSel]; simp

@[simp] theorem cfgValidOf_setDispSel (w : Word) (b : Bool) : cfgValidOf (setDispSel w b) = cfgValidOf w := by
  simp only [cfgValidOf, getLsbD_setDispSel]; simp

@[simp] theorem strideOf_setCfgValid (w : Word) (b : Bool) : strideOf (setCfgValid w b) = strideOf w := by
  simp [strideOf, setCfgValid, extract_insertField_apart]

@[simp] theorem pendingOf_setCfgValid (w : Word) (b : Bool) : pendingOf (setCfgValid w b) = pendingOf w := by
  simp [pendingOf, setCfgValid, extract_insertField_apart]

@[simp] theorem dispSelOf_setCfgValid (w : Word) (b : Bool) : dispSelOf (setCfgValid w b) = dispSelOf w := by
  simp only [dispSelOf, getLsbD_setCfgValid]; simp

@[simp] theorem cfgValidOf_setCfgValid (w : Word) (b : Bool) : cfgValidOf (setCfgValid w b) = b := by
  simp only [cfgValidOf, getLsbD_setCfgValid]; simp

@[simp] theorem strideOf_setSticky (w : Word) (c : FaultCode) : strideOf (setSticky w c) = strideOf w := by
  have := c.bit_range
  simp only [strideOf, setSticky]
  rw [extract_insertField_apart _ _ _ (by omega) _ _ (by omega)]

@[simp] theorem pendingOf_setSticky (w : Word) (c : FaultCode) : pendingOf (setSticky w c) = pendingOf w := by
  have := c.bit_range
  simp only [pendingOf, setSticky]
  rw [extract_insertField_apart _ _ _ (by omega) _ _ (by omega)]

@[simp] theorem dispSelOf_setSticky (w : Word) (c : FaultCode) : dispSelOf (setSticky w c) = dispSelOf w := by
  have h : ¬ 22 = 24 + c.number := by omega
  simp only [dispSelOf, getLsbD_setSticky, h]; simp

@[simp] theorem cfgValidOf_setSticky (w : Word) (c : FaultCode) : cfgValidOf (setSticky w c) = cfgValidOf w := by
  have h : ¬ 23 = 24 + c.number := by omega
  simp only [cfgValidOf, getLsbD_setSticky, h]; simp

/-- STRIDE and PENDING are below 2048. -/
theorem strideOf_lt (w : Word) : strideOf w < 2048 := (w.extractLsb' 0 11).isLt
theorem pendingOf_lt (w : Word) : pendingOf w < 2048 := (w.extractLsb' 11 11).isLt

/-- A sticky bit is set by its own code alone. -/
theorem stickyOf_setSticky (w : Word) (c d : FaultCode) :
    stickyOf (setSticky w c) d = (stickyOf w d || decide (d = c)) := by
  unfold stickyOf
  rw [getLsbD_setSticky]
  congr 1
  cases c <;> cases d <;> decide

/-! ### The word after reset -/

@[simp] theorem strideOf_zero : strideOf 0#32 = 0 := by decide
@[simp] theorem pendingOf_zero : pendingOf 0#32 = 0 := by decide
@[simp] theorem dispSelOf_zero : dispSelOf 0#32 = false := by decide
@[simp] theorem cfgValidOf_zero : cfgValidOf 0#32 = false := by decide

end Sys2Proof.Machine
end

