-- ==== Sys2Proof/Laws/Operands.lean ====
section
/-! SUPPORT. The geometry and channel arithmetic: the model's forms equal the spec's formulas (10_state.md R17, R18;
20_memory.md R34-R37; 41_decode.md R69-R72; 42_encode.md R81). -/

namespace Sys2Proof.Machine

theorem cubeSideOf_eq (g : Word) : cubeSideOf g = g.toNat % 256 := by
  simp [cubeSideOf, BitVec.extractLsb'_toNat]

theorem channelCountOf_eq (g : Word) : channelCountOf g = g.toNat / 256 % 256 := by
  simp [channelCountOf, BitVec.extractLsb'_toNat, Nat.shiftRight_eq_div_pow]

theorem channelSizeOf_eq (g : Word) : channelSizeOf g = g.toNat / 65536 % 256 := by
  simp [channelSizeOf, BitVec.extractLsb'_toNat, Nat.shiftRight_eq_div_pow]

theorem bufferSizeOf_eq (g : Word) : bufferSizeOf g = specBufferSize g := by
  unfold bufferSizeOf frameBytes specBufferSize
  rw [cubeSideOf_eq, channelCountOf_eq, channelSizeOf_eq, pow_three, Nat.add_sub_assoc (by omega), ← Nat.mul_assoc]

/-- The geometry that CONFIG writes is read back. -/
theorem cubeSideOf_setGeometry (g : Word) (a b c : BitVec 8) : cubeSideOf (setGeometry g a b c) = a.toNat := by
  unfold cubeSideOf setGeometry
  rw [extract_insertField_apart _ _ _ (by omega) _ _ (by omega),
    extract_insertField_apart _ _ _ (by omega) _ _ (by omega), extract_insertField_same _ _ _ (by omega)]

theorem channelCountOf_setGeometry (g : Word) (a b c : BitVec 8) :
    channelCountOf (setGeometry g a b c) = b.toNat := by
  unfold channelCountOf setGeometry
  rw [extract_insertField_apart _ _ _ (by omega) _ _ (by omega), extract_insertField_same _ _ _ (by omega)]

theorem channelSizeOf_setGeometry (g : Word) (a b c : BitVec 8) :
    channelSizeOf (setGeometry g a b c) = c.toNat := by
  unfold channelSizeOf setGeometry
  rw [extract_insertField_same _ _ _ (by omega)]

theorem getLsbD_setGeometry (g : Word) (a b c : BitVec 8) (i : Nat) (h : 24 ≤ i) :
    (setGeometry g a b c).getLsbD i = g.getLsbD i := by
  unfold setGeometry
  rw [getLsbD_insertField _ _ _ (by omega), if_neg (by omega), getLsbD_insertField _ _ _ (by omega),
    if_neg (by omega), getLsbD_insertField _ _ _ (by omega), if_neg (by omega)]

/-! ### Legal geometries -/

theorem legalGeom_iff (side count size : Nat) :
    legalGeom side count size = true ↔
      (1 ≤ side ∧ side ≤ 8) ∧ (1 ≤ count ∧ count ≤ 3) ∧ (size = 1 ∨ size = 2 ∨ size = 4 ∨ size = 8) := by
  simp [legalGeom, Config.cubeSideMin, Config.cubeSideMax, Config.channelCountMin, Config.channelCountMax,
    Config.channelSizes]
  omega

theorem frameBytes_range {side count size : Nat} (h : legalGeom side count size = true) :
    1 ≤ frameBytes side count size ∧ frameBytes side count size ≤ Config.bankBytes := by
  obtain ⟨⟨h1, h2⟩, ⟨h3, h4⟩, h5⟩ := (legalGeom_iff side count size).1 h
  have small : ∀ a ∈ List.range 9, ∀ b ∈ List.range 4, ∀ c ∈ [1, 2, 4, 8], 1 ≤ a → 1 ≤ b →
      1 ≤ frameBytes a b c ∧ frameBytes a b c ≤ Config.bankBytes := by decide
  exact small side (by simp; omega) count (by simp; omega) size (by simp; omega) h1 h3

theorem bufferSize_range {s : State} (h : legalWord s.geom = true) :
    1 ≤ s.bufferSize ∧ s.bufferSize ≤ Config.bankBytes := frameBytes_range h

/-! ### Locations -/

theorem channelOffset_eq (g : Word) (x y z c : Nat) :
    channelOffset g x y z c = specOffset (cubeSideOf g) (channelCountOf g) (channelSizeOf g) x y z c := by
  unfold channelOffset bitOffset voxelIndex specOffset
  rw [Nat.pow_two, Nat.mul_assoc z]

theorem shiftOf_eq (order : Config.BitOrder) (size o : Nat) : shiftOf order size o = specShift order size o := by
  cases order <;> rfl

/-- A channel of a voxel inside the cube ends inside the frame's bits (20_memory.md R35). -/
theorem specOffset_add_size_le {side count size x y z c : Nat} (hx : x < side) (hy : y < side) (hz : z < side)
    (hc : c < count) : specOffset side count size x y z c + size ≤ side ^ 3 * count * size := by
  have h1 : z * side * side + side * side ≤ side * side * side := by
    have := Nat.mul_le_mul_right (side * side) (Nat.succ_le_of_lt hz)
    calc z * side * side + side * side = (z + 1) * (side * side) := by ring
      _ ≤ side * (side * side) := this
      _ = side * side * side := by ring
  have h2 : y * side + side ≤ side * side := by
    have := Nat.mul_le_mul_right side (Nat.succ_le_of_lt hy)
    calc y * side + side = (y + 1) * side := by ring
      _ ≤ side * side := this
  have h3 : z * side * side + y * side + x + 1 ≤ side * side * side := by omega
  have h4 : (z * side * side + y * side + x) * count + c + 1 ≤ side * side * side * count := by
    have := Nat.mul_le_mul_right count h3
    rw [Nat.add_mul, Nat.one_mul] at this
    omega
  calc specOffset side count size x y z c + size
      = ((z * side * side + y * side + x) * count + c + 1) * size := by unfold specOffset; ring
    _ ≤ side * side * side * count * size := Nat.mul_le_mul_right size h4
    _ = side ^ 3 * count * size := by ring

/-- Every bit offset is a multiple of channelSize (20_memory.md R36). -/
theorem dvd_specOffset (side count size x y z c : Nat) : size ∣ specOffset side count size x y z c :=
  ⟨(z * side * side + y * side + x) * count + c, by unfold specOffset; ring⟩

/-- A channel lies wholly inside one byte (20_memory.md R36). -/
theorem mod_add_size_le {size o : Nat} (hs : size = 1 ∨ size = 2 ∨ size = 4 ∨ size = 8) (ho : size ∣ o) :
    o % 8 + size ≤ 8 := by
  obtain ⟨k, rfl⟩ := ho
  rcases hs with rfl | rfl | rfl | rfl <;> omega

theorem specShift_add_size_le (order : Config.BitOrder) {size o : Nat}
    (hs : size = 1 ∨ size = 2 ∨ size = 4 ∨ size = 8) (ho : size ∣ o) : specShift order size o + size ≤ 8 := by
  have := mod_add_size_le hs ho
  cases order <;> simp only [specShift] <;> omega

/-- The byte of a channel lies inside the packed frame (20_memory.md R36). -/
theorem specOffset_div_lt {side count size x y z c : Nat} (hx : x < side) (hy : y < side) (hz : z < side)
    (hc : c < count) (hs : 0 < size) : specOffset side count size x y z c / 8 < frameBytes side count size := by
  have := specOffset_add_size_le (size := size) hx hy hz hc
  unfold frameBytes
  omega

theorem inRange_iff (g : Word) (x y z : Nat) :
    inRange g x y z = true ↔ x < cubeSideOf g ∧ y < cubeSideOf g ∧ z < cubeSideOf g := by
  simp [inRange]

/-- In a legal geometry the byte of a channel inside the cube is inside the frame, and so inside the bank. -/
theorem chByte_lt {s : State} (hg : legalWord s.geom = true) {x y z : BitVec 3} (hr : s.InCube x y z) {c : Nat}
    (hc : c < s.channelCount) : s.chByte x y z c < s.bufferSize ∧ s.chByte x y z c < Config.bankBytes := by
  have hl := (legalGeom_iff _ _ _).1 hg
  have h := specOffset_div_lt (size := channelSizeOf s.geom) hr.1 hr.2.1 hr.2.2 hc (by omega)
  have hb := (bufferSize_range hg).2
  have he : s.chByte x y z c = specOffset (cubeSideOf s.geom) (channelCountOf s.geom) (channelSizeOf s.geom)
      x.toNat y.toNat z.toNat c / 8 := by
    rw [State.chByte, locByte, byteIndex, channelOffset_eq]
  rw [he]
  exact ⟨h, Nat.lt_of_lt_of_le h hb⟩

theorem chShift_add_size_le {s : State} (hg : legalWord s.geom = true) (x y z : BitVec 3) (c : Nat) :
    s.chShift x y z c + s.channelSize ≤ 8 := by
  have hl := (legalGeom_iff _ _ _).1 hg
  rw [State.chShift, locShift, shiftOf_eq, channelOffset_eq]
  exact specShift_add_size_le _ hl.2.2 (dvd_specOffset _ _ _ _ _ _ _)

/-! ### Values -/

theorem extractValue_eq (byte : Byte) (sh size : Nat) : extractValue byte sh size = specExtract byte sh size := by
  rw [extractValue, specExtract, maxValue, Nat.shiftRight_eq_div_pow, Nat.and_two_pow_sub_one_eq_mod]

theorem chByte_eq (s : State) (x y z : BitVec 3) (c : Nat) : s.chByte x y z c = s.specByte x y z c := by
  rw [State.chByte, locByte, byteIndex, channelOffset_eq]; rfl

theorem chShift_eq (s : State) (x y z : BitVec 3) (c : Nat) : s.chShift x y z c = s.specShift x y z c := by
  rw [State.chShift, locShift, shiftOf_eq, channelOffset_eq]; rfl

theorem rawAt_eq (s : State) (b : BankId) (x y z : BitVec 3) (c : Nat) : s.rawAt b x y z c = s.specRaw b x y z c := by
  rw [State.rawAt, extractValue_eq, chByte_eq, chShift_eq]; rfl

theorem displayBank_eq (s : State) : s.displayBank = s.DB := rfl

theorem writeBank_eq (s : State) : s.writeBank = s.WB := by
  unfold State.writeBank State.WB bankNumbered dispSelOf
  cases s.status.getLsbD 22 <;> rfl

theorem bankOf_eq (s : State) (sel : BankSel) : s.bankOf sel = s.roleBank sel := by
  cases sel
  · rfl
  · exact writeBank_eq s

/-- A raw value never exceeds channelMaxValue (41_decode.md R70). -/
theorem extractValue_le (byte : Byte) (sh size : Nat) : extractValue byte sh size ≤ maxValue size := by
  rw [extractValue_eq, specExtract, maxValue]
  have := Nat.mod_lt (byte.toNat / 2 ^ sh) (Nat.two_pow_pos size)
  omega

/-- Every bit of a byte after an insertion (42_encode.md R81). -/
theorem getLsbD_insertValue (old : Byte) {sh size v : Nat} (h : sh + size ≤ 8) (hv : v < 2 ^ size) (j : Nat) :
    (insertValue old sh size v).getLsbD j =
      if sh ≤ j ∧ j < sh + size then v.testBit (j - sh) else old.getLsbD j := by
  have h255 : ∀ k, (255#8).getLsbD k = decide (k < 8) := by
    intro k
    by_cases hk : k < 8
    · interval_cases k <;> decide
    · rw [BitVec.getLsbD_of_ge _ _ (by omega)]; simp [hk]
  unfold insertValue maxValue
  simp only [BitVec.getLsbD_or, BitVec.getLsbD_and, BitVec.getLsbD_not, BitVec.getLsbD_ofNat, h255,
    Nat.testBit_shiftLeft, Nat.testBit_two_pow_sub_one]
  by_cases hj : j < 8
  · by_cases h1 : sh ≤ j
    · by_cases h2 : j < sh + size
      · have : j - sh < size := by omega
        simp [*]
      · have h3 : ¬ j - sh < size := by omega
        have : v.testBit (j - sh) = false :=
          Nat.testBit_lt_two_pow (Nat.lt_of_lt_of_le hv (Nat.pow_le_pow_right (by omega) (by omega)))
        simp [*]
    · simp [*]
  · have h2 : ¬ j < sh + size := by omega
    have : old.getLsbD j = false := BitVec.getLsbD_of_ge _ _ (by omega)
    simp [hj, h2, this]

/-- Every bit of an extracted value (41_decode.md R70). -/
theorem testBit_extractValue (byte : Byte) (sh size j : Nat) :
    (extractValue byte sh size).testBit j = (decide (j < size) && byte.getLsbD (sh + j)) := by
  unfold extractValue maxValue
  rw [Nat.testBit_and, Nat.testBit_two_pow_sub_one, Nat.testBit_shiftRight, Bool.and_comm]
  rfl

/-- What is inserted is extracted (42_encode.md R81). -/
theorem extractValue_insertValue (old : Byte) {sh size v : Nat} (h : sh + size ≤ 8) (hv : v < 2 ^ size) :
    extractValue (insertValue old sh size v) sh size = v := by
  apply Nat.eq_of_testBit_eq
  intro j
  rw [testBit_extractValue, getLsbD_insertValue old h hv]
  by_cases hj : j < size
  · have : sh ≤ sh + j ∧ sh + j < sh + size := by omega
    simp [hj]
  · have : v.testBit j = false :=
      Nat.testBit_lt_two_pow (Nat.lt_of_lt_of_le hv (Nat.pow_le_pow_right (by omega) (by omega)))
    simp [hj, this]

/-- An insertion leaves the value of every field apart from it (42_encode.md R81). -/
theorem extractValue_insertValue_apart (old : Byte) {sh size v sh' : Nat} (h : sh + size ≤ 8) (hv : v < 2 ^ size)
    (apart : sh' + size ≤ sh ∨ sh + size ≤ sh') :
    extractValue (insertValue old sh size v) sh' size = extractValue old sh' size := by
  apply Nat.eq_of_testBit_eq
  intro j
  rw [testBit_extractValue, testBit_extractValue, getLsbD_insertValue old h hv]
  by_cases hj : j < size
  · have : ¬ (sh ≤ sh' + j ∧ sh' + j < sh + size) := by omega
    simp [this]
  · simp [hj]

theorem le_maxValue_iff {size v : Nat} : v ≤ maxValue size ↔ v < 2 ^ size := by
  have := Nat.two_pow_pos size
  unfold maxValue; omega

end Sys2Proof.Machine
end

