-- ==== Sys2Proof/Laws/State.lean ====
section
/-! SUPPORT. One lemma per field per update of State, each by unfolding once, so that no later proof unfolds a record
update; and the banks read through the updates. -/

namespace Sys2Proof.Machine

/-! ### respond -/

@[simp] theorem respond_geom (d : Word) (s : State) : (respond d s).geom = s.geom := rfl
@[simp] theorem respond_status (d : Word) (s : State) : (respond d s).status = s.status := rfl
@[simp] theorem respond_bank0 (d : Word) (s : State) : (respond d s).bank0 = s.bank0 := rfl
@[simp] theorem respond_bank1 (d : Word) (s : State) : (respond d s).bank1 = s.bank1 := rfl
@[simp] theorem respond_port (d : Word) (s : State) : (respond d s).port = s.port := rfl
@[simp] theorem respond_bitOrder (d : Word) (s : State) : (respond d s).bitOrder = s.bitOrder := rfl
@[simp] theorem respond_draw (d : Word) (s : State) : (respond d s).draw = s.draw := rfl
@[simp] theorem respond_responses (d : Word) (s : State) :
    (respond d s).responses = s.responses ++ [{ fault := false, code := 0, data := d }] := rfl

/-! ### raiseFault -/

@[simp] theorem raiseFault_geom (c : FaultCode) (s : State) : (raiseFault c s).geom = s.geom := rfl
@[simp] theorem raiseFault_status (c : FaultCode) (s : State) : (raiseFault c s).status = setSticky s.status c := rfl
@[simp] theorem raiseFault_bank0 (c : FaultCode) (s : State) : (raiseFault c s).bank0 = s.bank0 := rfl
@[simp] theorem raiseFault_bank1 (c : FaultCode) (s : State) : (raiseFault c s).bank1 = s.bank1 := rfl
@[simp] theorem raiseFault_port (c : FaultCode) (s : State) : (raiseFault c s).port = s.port := rfl
@[simp] theorem raiseFault_bitOrder (c : FaultCode) (s : State) : (raiseFault c s).bitOrder = s.bitOrder := rfl
@[simp] theorem raiseFault_draw (c : FaultCode) (s : State) : (raiseFault c s).draw = s.draw := rfl
@[simp] theorem raiseFault_responses (c : FaultCode) (s : State) :
    (raiseFault c s).responses = s.responses ++ [{ fault := true, code := c.code, data := 0 }] := rfl

/-! ### withStatus -/

@[simp] theorem withStatus_geom (s : State) (w : Word) : (s.withStatus w).geom = s.geom := rfl
@[simp] theorem withStatus_status (s : State) (w : Word) : (s.withStatus w).status = w := rfl
@[simp] theorem withStatus_bank0 (s : State) (w : Word) : (s.withStatus w).bank0 = s.bank0 := rfl
@[simp] theorem withStatus_bank1 (s : State) (w : Word) : (s.withStatus w).bank1 = s.bank1 := rfl
@[simp] theorem withStatus_port (s : State) (w : Word) : (s.withStatus w).port = s.port := rfl
@[simp] theorem withStatus_responses (s : State) (w : Word) : (s.withStatus w).responses = s.responses := rfl
@[simp] theorem withStatus_bitOrder (s : State) (w : Word) : (s.withStatus w).bitOrder = s.bitOrder := rfl
@[simp] theorem withStatus_draw (s : State) (w : Word) : (s.withStatus w).draw = s.draw := rfl

/-! ### withCells -/

@[simp] theorem withCells_geom (s : State) (b : BankId) (m : Memory) : (s.withCells b m).geom = s.geom := by
  cases b <;> rfl
@[simp] theorem withCells_status (s : State) (b : BankId) (m : Memory) : (s.withCells b m).status = s.status := by
  cases b <;> rfl
@[simp] theorem withCells_port (s : State) (b : BankId) (m : Memory) : (s.withCells b m).port = s.port := by
  cases b <;> rfl
@[simp] theorem withCells_responses (s : State) (b : BankId) (m : Memory) :
    (s.withCells b m).responses = s.responses := by
  cases b <;> rfl
@[simp] theorem withCells_bitOrder (s : State) (b : BankId) (m : Memory) :
    (s.withCells b m).bitOrder = s.bitOrder := by
  cases b <;> rfl
@[simp] theorem withCells_draw (s : State) (b : BankId) (m : Memory) : (s.withCells b m).draw = s.draw := by
  cases b <;> rfl
@[simp] theorem cells_withCells_same (s : State) (b : BankId) (m : Memory) : (s.withCells b m).cells b = m := by
  cases b <;> rfl
theorem cells_withCells_other (s : State) {b c : BankId} (m : Memory) (h : c ≠ b) :
    (s.withCells b m).cells c = s.cells c := by
  cases b <;> cases c <;> first | rfl | exact absurd rfl h

/-! ### storeByte and storeBytes -/

@[simp] theorem storeByte_geom (s : State) (b : BankId) (i : Nat) (v : Byte) : (s.storeByte b i v).geom = s.geom := by
  simp [State.storeByte]
@[simp] theorem storeByte_status (s : State) (b : BankId) (i : Nat) (v : Byte) :
    (s.storeByte b i v).status = s.status := by
  simp [State.storeByte]
@[simp] theorem storeByte_port (s : State) (b : BankId) (i : Nat) (v : Byte) : (s.storeByte b i v).port = s.port := by
  simp [State.storeByte]
@[simp] theorem storeByte_responses (s : State) (b : BankId) (i : Nat) (v : Byte) :
    (s.storeByte b i v).responses = s.responses := by
  simp [State.storeByte]
@[simp] theorem storeByte_bitOrder (s : State) (b : BankId) (i : Nat) (v : Byte) :
    (s.storeByte b i v).bitOrder = s.bitOrder := by
  simp [State.storeByte]
@[simp] theorem storeByte_draw (s : State) (b : BankId) (i : Nat) (v : Byte) : (s.storeByte b i v).draw = s.draw := by
  simp [State.storeByte]
@[simp] theorem storeBytes_geom (s : State) (b : BankId) (p : Nat) (v : Byte) (n : Nat) :
    (s.storeBytes b p v n).geom = s.geom := by
  simp [State.storeBytes]
@[simp] theorem storeBytes_status (s : State) (b : BankId) (p : Nat) (v : Byte) (n : Nat) :
    (s.storeBytes b p v n).status = s.status := by
  simp [State.storeBytes]
@[simp] theorem storeBytes_port (s : State) (b : BankId) (p : Nat) (v : Byte) (n : Nat) :
    (s.storeBytes b p v n).port = s.port := by
  simp [State.storeBytes]
@[simp] theorem storeBytes_responses (s : State) (b : BankId) (p : Nat) (v : Byte) (n : Nat) :
    (s.storeBytes b p v n).responses = s.responses := by
  simp [State.storeBytes]
@[simp] theorem storeBytes_bitOrder (s : State) (b : BankId) (p : Nat) (v : Byte) (n : Nat) :
    (s.storeBytes b p v n).bitOrder = s.bitOrder := by
  simp [State.storeBytes]
@[simp] theorem storeBytes_draw (s : State) (b : BankId) (p : Nat) (v : Byte) (n : Nat) :
    (s.storeBytes b p v n).draw = s.draw := by
  simp [State.storeBytes]

/-! ### resetBlock and offer -/

@[simp] theorem resetBlock_geom (s : State) : (resetBlock s).geom = 0 := rfl
@[simp] theorem resetBlock_status (s : State) : (resetBlock s).status = 0 := rfl
@[simp] theorem resetBlock_bank0 (s : State) : (resetBlock s).bank0 = [] := rfl
@[simp] theorem resetBlock_bank1 (s : State) : (resetBlock s).bank1 = [] := rfl
@[simp] theorem resetBlock_port (s : State) : (resetBlock s).port = s.port := rfl
@[simp] theorem resetBlock_responses (s : State) : (resetBlock s).responses = s.responses := rfl
@[simp] theorem resetBlock_bitOrder (s : State) : (resetBlock s).bitOrder = s.bitOrder := rfl
@[simp] theorem resetBlock_draw (s : State) : (resetBlock s).draw = s.draw + 1 := rfl
@[simp] theorem offer_port (s : State) (w : Word) : (s.offer w).port = .command w :: s.port := rfl
@[simp] theorem offer_geom (s : State) (w : Word) : (s.offer w).geom = s.geom := rfl
@[simp] theorem offer_status (s : State) (w : Word) : (s.offer w).status = s.status := rfl

/-! ### What a field decides: the roles of the banks, the cursor, the geometry -/

theorem displayBank_congr {s t : State} (h : t.status = s.status) : t.displayBank = s.displayBank := by
  simp [State.displayBank, h]
theorem writeBank_congr {s t : State} (h : t.status = s.status) : t.writeBank = s.writeBank := by
  simp [State.writeBank, h]

@[simp] theorem displayBank_ne_writeBank (s : State) : s.displayBank ≠ s.writeBank := by
  unfold State.displayBank State.writeBank; cases dispSelOf s.status <;> simp
@[simp] theorem writeBank_ne_displayBank (s : State) : s.writeBank ≠ s.displayBank :=
  (displayBank_ne_writeBank s).symm

@[simp] theorem displayBank_withStatus (s : State) (w : Word) :
    (s.withStatus w).displayBank = if dispSelOf w then .bank1 else .bank0 := rfl
@[simp] theorem writeBank_withStatus (s : State) (w : Word) :
    (s.withStatus w).writeBank = if dispSelOf w then .bank0 else .bank1 := rfl

@[simp] theorem cells_respond (d : Word) (s : State) (b : BankId) : (respond d s).cells b = s.cells b := by
  cases b <;> rfl
@[simp] theorem cells_raiseFault (c : FaultCode) (s : State) (b : BankId) : (raiseFault c s).cells b = s.cells b := by
  cases b <;> rfl
@[simp] theorem cells_withStatus (s : State) (w : Word) (b : BankId) : (s.withStatus w).cells b = s.cells b := by
  cases b <;> rfl

/-- A byte reads alike in two states with the same cells and the same draw. -/
theorem byteAt_congr {s t : State} {b : BankId} (hc : t.cells b = s.cells b) (hd : t.draw = s.draw) (i : Nat) :
    t.byteAt b i = s.byteAt b i := by
  simp [State.byteAt, State.unwritten, hc, hd]

@[simp] theorem byteAt_respond (d : Word) (s : State) (b : BankId) (i : Nat) :
    (respond d s).byteAt b i = s.byteAt b i := byteAt_congr (cells_respond d s b) rfl i
@[simp] theorem byteAt_raiseFault (c : FaultCode) (s : State) (b : BankId) (i : Nat) :
    (raiseFault c s).byteAt b i = s.byteAt b i := byteAt_congr (cells_raiseFault c s b) rfl i
@[simp] theorem byteAt_withStatus (s : State) (w : Word) (b : BankId) (i : Nat) :
    (s.withStatus w).byteAt b i = s.byteAt b i := byteAt_congr (cells_withStatus s w b) rfl i

end Sys2Proof.Machine
end

