-- ==== Sys2Proof/Laws/Ops.lean ====
section
/-! SUPPORT. One lemma for each shared operation that says once everything it can do, and one inversion of exec: if a
command answers a next state, that state is one of a short list (`Effect`). -/

namespace Sys2Proof.Machine

/-! ### Bytes of a bank -/

theorem byteAt_storeByte (s : State) (b : BankId) (i : Nat) (v : Byte) (c : BankId) (j : Nat) :
    (s.storeByte b i v).byteAt c j = if c = b ∧ i = j then v else s.byteAt c j := by
  by_cases h : c = b
  · subst h
    simp only [State.byteAt, State.storeByte, cells_withCells_same, lookup_store, State.unwritten, withCells_draw]
    by_cases hj : i = j <;> simp [hj]
  · rw [if_neg (by simp [h])]
    exact byteAt_congr (cells_withCells_other s _ h) (withCells_draw s b _) j

theorem byteAt_storeBytes (s : State) (b : BankId) (p : Nat) (v : Byte) (n : Nat) (c : BankId) (j : Nat) :
    (s.storeBytes b p v n).byteAt c j = if c = b ∧ p ≤ j ∧ j < p + n then v else s.byteAt c j := by
  by_cases h : c = b
  · subst h
    simp only [State.byteAt, State.storeBytes, cells_withCells_same, lookup_storeRun, State.unwritten, withCells_draw]
    by_cases hj : p ≤ j ∧ j < p + n <;> simp [hj]
  · rw [if_neg (by simp [h])]
    exact byteAt_congr (cells_withCells_other s _ h) (withCells_draw s b _) j

theorem sameBanksBut_storeByte (s : State) (b : BankId) (i : Nat) (v : Byte) :
    SameBanksBut b i 1 s (s.storeByte b i v) := by
  intro c j h
  rw [byteAt_storeByte, if_neg]
  rintro ⟨h1, h2⟩
  exact h ⟨h1, by omega, by omega⟩

theorem sameBanksBut_storeBytes (s : State) (b : BankId) (p : Nat) (v : Byte) (n : Nat) :
    SameBanksBut b p n s (s.storeBytes b p v n) := by
  intro c j h
  rw [byteAt_storeBytes, if_neg h]

/-! ### Accesses -/

theorem bankRead_of_lt {b : BankId} {i : Nat} {s : State} {go : Byte → Result} (h : i < Config.bankBytes) :
    bankRead b i s go = go (s.byteAt b i) := if_pos h

theorem bankRead_next {b : BankId} {i : Nat} {s t : State} {go : Byte → Result} (h : bankRead b i s go = .next t) :
    i < Config.bankBytes ∧ go (s.byteAt b i) = .next t := by
  unfold bankRead at h
  split at h
  · exact ⟨‹_›, h⟩
  · cases h

theorem bankWrite_of_lt {b : BankId} {i : Nat} {v : Byte} {s : State} {go : State → Result}
    (h : i < Config.bankBytes) : bankWrite b i v s go = go (s.storeByte b i v) := if_pos h

theorem bankWrite_next {b : BankId} {i : Nat} {v : Byte} {s t : State} {go : State → Result}
    (h : bankWrite b i v s go = .next t) : i < Config.bankBytes ∧ go (s.storeByte b i v) = .next t := by
  unfold bankWrite at h
  split at h
  · exact ⟨‹_›, h⟩
  · cases h

theorem bankWriteRun_of_le {b : BankId} {p n : Nat} {v : Byte} {s : State} {go : State → Result}
    (h : n = 0 ∨ p + n ≤ Config.bankBytes) : bankWriteRun b p v n s go = go (s.storeBytes b p v n) := if_pos h

theorem bankWriteRun_next {b : BankId} {p n : Nat} {v : Byte} {s t : State} {go : State → Result}
    (h : bankWriteRun b p v n s go = .next t) :
    (n = 0 ∨ p + n ≤ Config.bankBytes) ∧ go (s.storeBytes b p v n) = .next t := by
  unfold bankWriteRun at h
  split at h
  · exact ⟨‹_›, h⟩
  · cases h

theorem extractChannel_of_lt {b : BankId} {x y z : BitVec 3} {c : Nat} {s : State} {go : Nat → Result}
    (h : s.chByte x y z c < Config.bankBytes) : extractChannel b x y z c s go = go (s.rawAt b x y z c) :=
  bankRead_of_lt h

theorem extractChannel_next {b : BankId} {x y z : BitVec 3} {c : Nat} {s t : State} {go : Nat → Result}
    (h : extractChannel b x y z c s go = .next t) : go (s.rawAt b x y z c) = .next t := (bankRead_next h).2

/-! ### The prelude and the checks -/

theorem whenConfigured_of {s : State} {body : Result} (h : cfgValidOf s.status = true) :
    whenConfigured s body = body := if_pos h

theorem whenConfigured_of_not {s : State} {body : Result} (h : cfgValidOf s.status = false) :
    whenConfigured s body = trap .nocfg s := by simp [whenConfigured, h]

theorem whenConfigured_next {s t : State} {body : Result} (h : whenConfigured s body = .next t) :
    (cfgValidOf s.status = true ∧ body = .next t) ∨ t = raiseFault .nocfg s := by
  unfold whenConfigured at h
  split at h
  · exact .inl ⟨‹_›, h⟩
  · cases h; exact .inr rfl

theorem whenInRange_of {x y z : BitVec 3} {s : State} {body : Result} (h : s.InCube x y z) :
    whenInRange x y z s body = body := if_pos ((inRange_iff _ _ _ _).2 h)

theorem whenInRange_of_not {x y z : BitVec 3} {s : State} {body : Result} (h : ¬ s.InCube x y z) :
    whenInRange x y z s body = trap .coord s := if_neg fun hh => h ((inRange_iff _ _ _ _).1 hh)

theorem whenInRange_next {x y z : BitVec 3} {s t : State} {body : Result} (h : whenInRange x y z s body = .next t) :
    (s.InCube x y z ∧ body = .next t) ∨ t = raiseFault .coord s := by
  unfold whenInRange at h
  split at h
  · exact .inl ⟨(inRange_iff _ _ _ _).1 ‹_›, h⟩
  · cases h; exact .inr rfl

/-! ### Responding and faulting -/

theorem respond_onlyResponds (d : Word) (s : State) : OnlyResponds s (respond d s) d where
  responds := rfl
  geom := rfl
  status := rfl
  banks := fun b i => byteAt_respond d s b i
  env := ⟨rfl, rfl, rfl⟩

theorem raiseFault_faults (c : FaultCode) (s : State) : Faults s (raiseFault c s) c.number where
  responds := rfl
  sticky := fun i => getLsbD_setSticky s.status c i
  geom := rfl
  banks := fun b i => byteAt_raiseFault c s b i
  env := ⟨rfl, rfl, rfl⟩

/-- A command that only responds completes. -/
theorem completes_of_done {i : Instr} {s : State} {d : Word} (h : exec i s = done d s) :
    Completes i s fun t => OnlyResponds s t d := ⟨_, h, respond_onlyResponds d s⟩

/-- A command that faults completes with the fault's response. -/
theorem completes_of_trap {i : Instr} {s : State} {c : FaultCode} (h : exec i s = trap c s) :
    Completes i s fun t => Faults s t c.number := ⟨_, h, raiseFault_faults c s⟩

/-! ### Everything a command can do -/

/-- The commands that read only: no state changes but a sticky bit (41_decode.md R80). -/
def readsOnly : Instr → Bool
  | .nop => true
  | .rdreg _ => true
  | .rdch _ _ _ _ _ => true
  | .gcb _ _ _ _ => true
  | .gcs _ _ _ _ => true
  | .gvb _ _ _ => true
  | .gvs _ _ _ => true
  | .rdb _ _ => true
  | .config _ _ _ => false
  | .wrch _ _ _ _ _ => false
  | .appb _ => false
  | .appr _ _ => false
  | .commit => false
  | .discard => false
  | .display => false

/-- What a command that answers a next state has done: responded only, faulted, or had its own effect. -/
inductive Effect (s : State) : Instr → State → Prop
  | responded (i : Instr) (d : Word) : (readsOnly i = true ∨ cfgValidOf s.status = true) → Effect s i (respond d s)
  | faulted (i : Instr) (c : FaultCode) : Effect s i (raiseFault c s)
  | configured (side count size : BitVec 8) :
      cfgValidOf s.status = false → legalGeom side.toNat count.toNat size.toNat = true →
      Effect s (.config side count size)
        (respond 0 { s with geom := setGeometry s.geom side count size, status := setCfgValid s.status true })
  | packed (x y z : BitVec 3) (ch : BitVec 2) (value : BitVec 8) :
      cfgValidOf s.status = true → ch.toNat < s.channelCount → s.InCube x y z →
      value.toNat ≤ maxValue s.channelSize → s.chByte x y z ch.toNat < Config.bankBytes →
      Effect s (.wrch x y z ch value) (respond 0 (s.storeByte s.writeBank (s.chByte x y z ch.toNat)
        (insertValue (s.byteAt s.writeBank (s.chByte x y z ch.toNat)) (s.chShift x y z ch.toNat) s.channelSize
          value.toNat)))
  | appended (byte : BitVec 8) :
      cfgValidOf s.status = true → s.appendIndex < s.bufferSize → s.appendIndex < Config.bankBytes →
      Effect s (.appb byte) (respond 1 ((s.storeByte s.writeBank s.appendIndex byte).withStatus
        (setPending s.status (s.pending + 1))))
  | ran (byte run : BitVec 8) :
      cfgValidOf s.status = true → (s.runLength run = 0 ∨ s.appendIndex + s.runLength run ≤ Config.bankBytes) →
      Effect s (.appr byte run) (respond (dataWord (s.runLength run))
        ((s.storeBytes s.writeBank s.appendIndex byte (s.runLength run)).withStatus
          (setPending s.status (s.pending + s.runLength run))))
  | committed :
      cfgValidOf s.status = true → s.appendIndex ≤ s.bufferSize →
      Effect s .commit (respond 1 (s.withStatus (setPending (setStride s.status s.appendIndex) 0)))
  | notCommitted :
      cfgValidOf s.status = true → ¬ s.appendIndex ≤ s.bufferSize →
      Effect s .commit (respond 0 (s.withStatus (setPending s.status 0)))
  | discarded :
      cfgValidOf s.status = true → Effect s .discard (respond 0 (s.withStatus (setPending s.status 0)))
  | displayed :
      cfgValidOf s.status = true → s.stride = s.bufferSize →
      Effect s .display
        (respond 1 (s.withStatus (clearCursor (setDispSel s.status (!dispSelOf s.status)))))
  | notDisplayed :
      cfgValidOf s.status = true → s.stride ≠ s.bufferSize →
      Effect s .display (respond 0 (s.withStatus (clearCursor s.status)))

theorem effect_of_done {s t : State} {i : Instr} {d : Word} (hr : readsOnly i = true ∨ cfgValidOf s.status = true)
    (h : done d s = .next t) : Effect s i t := by cases h; exact .responded i d hr

theorem effect_of_trap {s t : State} {i : Instr} {c : FaultCode} (h : trap c s = .next t) : Effect s i t := by
  cases h; exact .faulted i c

/-- The inversion of exec. -/
theorem exec_effect {i : Instr} {s t : State} (h : exec i s = .next t) : Effect s i t := by
  cases i with
  | nop => exact effect_of_done (.inl rfl) h
  | config side count size =>
    simp only [exec, execConfig] at h
    split at h
    · exact effect_of_trap h
    · rename_i hv
      split at h
      · cases h; exact .configured side count size (by simpa using hv) ‹_›
      · exact effect_of_trap h
  | rdreg reg =>
    simp only [exec, execRdreg] at h
    split at h
    · exact effect_of_done (.inl rfl) h
    · split at h
      · exact effect_of_done (.inl rfl) h
      · split at h
        · exact effect_of_done (.inl rfl) h
        · exact effect_of_trap h
  | rdch sel x y z ch =>
    rcases whenConfigured_next h with ⟨hc, h⟩ | rfl
    · split at h
      · exact effect_of_done (.inl rfl) h
      · rcases whenInRange_next h with ⟨hr, h⟩ | rfl
        · exact effect_of_done (.inl rfl) (extractChannel_next h)
        · exact .faulted _ _
    · exact .faulted _ _
  | gcb x y z ch =>
    rcases whenConfigured_next h with ⟨hc, h⟩ | rfl
    · split at h
      · exact effect_of_done (.inl rfl) h
      · rcases whenInRange_next h with ⟨hr, h⟩ | rfl
        · exact effect_of_done (.inl rfl) (extractChannel_next h)
        · exact .faulted _ _
    · exact .faulted _ _
  | gcs x y z ch =>
    rcases whenConfigured_next h with ⟨hc, h⟩ | rfl
    · split at h
      · exact effect_of_done (.inl rfl) h
      · split at h
        · exact effect_of_done (.inl rfl) h
        · rcases whenInRange_next h with ⟨hr, h⟩ | rfl
          · exact effect_of_done (.inl rfl) (extractChannel_next h)
          · exact .faulted _ _
    · exact .faulted _ _
  | gvb x y z =>
    rcases whenConfigured_next h with ⟨hc, h⟩ | rfl
    · split at h
      · exact effect_of_done (.inl rfl) h
      · rcases whenInRange_next h with ⟨hr, h⟩ | rfl
        · exact effect_of_done (.inl rfl) (extractChannel_next h)
        · exact .faulted _ _
    · exact .faulted _ _
  | gvs x y z =>
    rcases whenConfigured_next h with ⟨hc, h⟩ | rfl
    · split at h
      · exact effect_of_done (.inl rfl) h
      · split at h
        · exact effect_of_done (.inl rfl) h
        · rcases whenInRange_next h with ⟨hr, h⟩ | rfl
          · exact effect_of_done (.inl rfl) (extractChannel_next h)
          · exact .faulted _ _
    · exact .faulted _ _
  | wrch x y z ch value =>
    rcases whenConfigured_next h with ⟨hc, h⟩ | rfl
    · split at h
      · exact effect_of_done (.inr hc) h
      · rcases whenInRange_next h with ⟨hr, h⟩ | rfl
        · split at h
          · exact effect_of_trap h
          · obtain ⟨hb, h⟩ := bankRead_next h
            obtain ⟨-, h⟩ := bankWrite_next h
            cases h
            exact .packed x y z ch value hc (by omega) hr (by omega) hb
        · exact .faulted _ _
    · exact .faulted _ _
  | rdb sel idx =>
    rcases whenConfigured_next h with ⟨hc, h⟩ | rfl
    · split at h
      · exact effect_of_trap h
      · exact effect_of_done (.inl rfl) (bankRead_next h).2
    · exact .faulted _ _
  | appb byte =>
    rcases whenConfigured_next h with ⟨hc, h⟩ | rfl
    · split at h
      · obtain ⟨hb, h⟩ := bankWrite_next h
        cases h
        have h1 := storeByte_status s s.writeBank s.appendIndex byte
        have h2 : (s.storeByte s.writeBank s.appendIndex byte).pending = s.pending := by
          rw [State.pending, h1]
        rw [h1, h2]
        exact .appended byte hc ‹_› hb
      · exact effect_of_done (.inr hc) h
    · exact .faulted _ _
  | appr byte run =>
    rcases whenConfigured_next h with ⟨hc, h⟩ | rfl
    · obtain ⟨hb, h⟩ := bankWriteRun_next h
      cases h
      have h1 := storeBytes_status s s.writeBank s.appendIndex byte (s.runLength run)
      have h2 : (s.storeBytes s.writeBank s.appendIndex byte (s.runLength run)).pending = s.pending := by
        rw [State.pending, h1]
      rw [h1, h2]
      exact .ran byte run hc hb
    · exact .faulted _ _
  | commit =>
    rcases whenConfigured_next h with ⟨hc, h⟩ | rfl
    · split at h
      · cases h; exact .committed hc ‹_›
      · cases h; exact .notCommitted hc ‹_›
    · exact .faulted _ _
  | discard =>
    rcases whenConfigured_next h with ⟨hc, h⟩ | rfl
    · cases h; exact .discarded hc
    · exact .faulted _ _
  | display =>
    rcases whenConfigured_next h with ⟨hc, h⟩ | rfl
    · split at h
      · cases h; exact .displayed hc ‹_›
      · cases h; exact .notDisplayed hc ‹_›
    · exact .faulted _ _

end Sys2Proof.Machine
end

