-- ==== Sys2Proof/Laws/Exec.lean ====
section
/-! SUPPORT. What each storing or cursor command answers when its own effect happens, as one equation each, and the STATE
bits and fields of the words those commands write. -/

namespace Sys2Proof.Machine

/-! ### The cursor cleared by DISPLAY -/

theorem getLsbD_clearCursor (w : Word) (i : Nat) (h : 22 ≤ i) : (clearCursor w).getLsbD i = w.getLsbD i := by
  unfold clearCursor
  rw [getLsbD_setPending, if_neg (by omega), getLsbD_setStride, if_neg (by omega)]

@[simp] theorem strideOf_clearCursor (w : Word) : strideOf (clearCursor w) = 0 := by simp [clearCursor]
@[simp] theorem pendingOf_clearCursor (w : Word) : pendingOf (clearCursor w) = 0 := by simp [clearCursor]
@[simp] theorem dispSelOf_clearCursor (w : Word) : dispSelOf (clearCursor w) = dispSelOf w := by simp [clearCursor]
@[simp] theorem cfgValidOf_clearCursor (w : Word) : cfgValidOf (clearCursor w) = cfgValidOf w := by simp [clearCursor]

/-! ### One equation per command -/

theorem exec_nocfg {i : Instr} {s : State} {body : Result} (h : cfgValidOf s.status = false)
    (he : exec i s = whenConfigured s body) : exec i s = trap .nocfg s := by rw [he, whenConfigured_of_not h]

theorem exec_wrch_packs {x y z : BitVec 3} {ch : BitVec 2} {value : BitVec 8} {s : State}
    (hc : cfgValidOf s.status = true) (hch : ch.toNat < s.channelCount) (hr : s.InCube x y z)
    (hv : value.toNat ≤ maxValue s.channelSize) (hb : s.chByte x y z ch.toNat < Config.bankBytes) :
    exec (.wrch x y z ch value) s = done 0 (s.storeByte s.writeBank (s.chByte x y z ch.toNat)
      (insertValue (s.byteAt s.writeBank (s.chByte x y z ch.toNat)) (s.chShift x y z ch.toNat) s.channelSize
        value.toNat)) := by
  have h1 : ¬ s.channelCount ≤ ch.toNat := Nat.not_le.2 hch
  have h2 : ¬ maxValue s.channelSize < value.toNat := Nat.not_lt.2 hv
  simp only [exec, execWrch, whenConfigured_of hc, if_neg h1, whenInRange_of hr, if_neg h2, bankRead_of_lt hb,
    bankWrite_of_lt hb]

theorem exec_appb_appends {byte : BitVec 8} {s : State} (hc : cfgValidOf s.status = true)
    (hroom : s.appendIndex < s.bufferSize) (hb : s.appendIndex < Config.bankBytes) :
    exec (.appb byte) s = done 1 ((s.storeByte s.writeBank s.appendIndex byte).withStatus
      (setPending s.status (s.pending + 1))) := by
  simp only [exec, execAppb, whenConfigured_of hc, if_pos hroom, bankWrite_of_lt hb, State.pending, storeByte_status]

theorem exec_appb_full {byte : BitVec 8} {s : State} (hc : cfgValidOf s.status = true)
    (hfull : s.bufferSize ≤ s.appendIndex) : exec (.appb byte) s = done 0 s := by
  have h : ¬ s.appendIndex < s.bufferSize := Nat.not_lt.2 hfull
  simp only [exec, execAppb, whenConfigured_of hc, if_neg h]

theorem exec_appr_runs {byte run : BitVec 8} {s : State} (hc : cfgValidOf s.status = true)
    (hb : s.runLength run = 0 ∨ s.appendIndex + s.runLength run ≤ Config.bankBytes) :
    exec (.appr byte run) s = done (dataWord (s.runLength run))
      ((s.storeBytes s.writeBank s.appendIndex byte (s.runLength run)).withStatus
        (setPending s.status (s.pending + s.runLength run))) := by
  simp only [exec, execAppr, whenConfigured_of hc, bankWriteRun_of_le hb, State.pending, storeBytes_status]

theorem exec_commit_fits {s : State} (hc : cfgValidOf s.status = true) (hfit : s.appendIndex ≤ s.bufferSize) :
    exec .commit s = done 1 (s.withStatus (setPending (setStride s.status s.appendIndex) 0)) := by
  simp only [exec, execCommit, whenConfigured_of hc, if_pos hfit]

theorem exec_commit_not_fits {s : State} (hc : cfgValidOf s.status = true) (hfit : s.bufferSize < s.appendIndex) :
    exec .commit s = done 0 (s.withStatus (setPending s.status 0)) := by
  have h : ¬ s.appendIndex ≤ s.bufferSize := Nat.not_le.2 hfit
  simp only [exec, execCommit, whenConfigured_of hc, if_neg h]

theorem exec_discard_drops {s : State} (hc : cfgValidOf s.status = true) :
    exec .discard s = done 0 (s.withStatus (setPending s.status 0)) := by
  simp only [exec, execDiscard, whenConfigured_of hc]

theorem exec_display_swaps {s : State} (hc : cfgValidOf s.status = true) (hfull : s.stride = s.bufferSize) :
    exec .display s = done 1 (s.withStatus (clearCursor (setDispSel s.status (!dispSelOf s.status)))) := by
  simp only [exec, execDisplay, whenConfigured_of hc, if_pos hfull]

theorem exec_display_fails {s : State} (hc : cfgValidOf s.status = true) (hfull : s.stride ≠ s.bufferSize) :
    exec .display s = done 0 (s.withStatus (clearCursor s.status)) := by
  simp only [exec, execDisplay, whenConfigured_of hc, if_neg hfull]

/-! ### Bounds in a configured state that meets the invariant -/

theorem State.Ready.legal {s : State} (h : s.Ready) : legalWord s.geom = true := (h.1.1.2 h.2).1
theorem State.Ready.cursor {s : State} (h : s.Ready) : s.appendIndex ≤ s.bufferSize := (h.1.1.2 h.2).2
theorem State.Ready.size {s : State} (h : s.Ready) : 1 ≤ s.bufferSize ∧ s.bufferSize ≤ Config.bankBytes :=
  bufferSize_range h.legal

/-- A run that APPR writes ends inside the frame, and so inside the bank. -/
theorem State.Ready.run_le {s : State} (h : s.Ready) (run : BitVec 8) :
    s.appendIndex + s.runLength run ≤ s.bufferSize ∧ s.appendIndex + s.runLength run ≤ Config.bankBytes := by
  have h1 := h.cursor
  have h2 := h.size.2
  have h3 : s.runLength run ≤ s.bufferSize - s.appendIndex := Nat.min_le_right _ _
  constructor <;> omega

end Sys2Proof.Machine
end

