-- ==== Sys2Proof/Tests/Slice0.lean ====
section
/-! SUPPORT. The model's own tests, and for every statement of Obligations.lean a witness of its hypotheses. Expected values
come from the spec: the vectors S1-S9, V1-V9 and programs P1-P5 of spec/95_test_vectors.md, named at each test. -/

namespace Sys2Proof.Tests

open Sys2Proof Sys2Proof.Machine

/-! ### Small states -/

/-- A state with these registers and these written cells in BANK[1]. -/
def small (geom status : Word) (cells : Memory) (order : Config.BitOrder := .lsbFirst) : State :=
  { State.reset with geom := geom, status := status, bank1 := cells, bitOrder := order }

/-- Bytes listed from index 0. -/
def bytes (vs : List Byte) : Memory := vs.zipIdx.map fun p => (p.2, p.1)

/-- Program P2 after its DISPLAY: geometry (2, 3, 4), the frame of V4 published. -/
def frameP2 (order : Config.BitOrder) : State :=
  small 0x00040302 0x00C00000 (bytes [0x10, 0x32, 0x54, 0x76, 0x98, 0xBA, 0xDC, 0xFE, 0x21, 0x43, 0x65, 0x87]) order

/-- Program P5 after its DISPLAY: geometry (3, 1, 1). -/
def frameP5 (order : Config.BitOrder) : State := small 0x00010103 0x02C00000 (bytes [1, 2, 4, 8]) order

/-- Vector V6 after its COMMIT: geometry (2, 3, 4), the write bank full. -/
def fullV6 (order : Config.BitOrder) : State :=
  small 0x00040302 0x0080000C (bytes [0, 0, 0, 0, 0, 0, 0xFF, 0xFF, 0xFF, 0xFF, 0xFF, 0xFF]) order

/-- Geometry (2, 3, 4) with an empty assembly, and the same with eight committed bytes and two pending. -/
def emptyV8 : State := small 0x00040302 0x00800000 []
def partV8 : State := small 0x00040302 0x00801008 (bytes [0, 0, 0, 0, 0, 0, 0, 0, 0, 0])

/-- Geometry (2, 1, 1) with STRIDE = PENDING = 1: no run reaches it. -/
def overfull : State := small 0x00010102 0x00800801 []

/-- The largest geometry (8, 3, 8), its frame published as program P4 publishes one. -/
def largest : State := small 0x00080308 0x00C00000 []

/-- Geometry (1, 3, 1), whose one byte has five padding bits, its write bank full. -/
def padded (order : Config.BitOrder) : State := small 0x00010301 0x00800001 (bytes [0xFF]) order

/-! ### What a test looks at -/

/-- The answer of an outcome: the last response, and the STATE word after it. -/
def answer : Result → Option (Response × Word)
  | .next t => t.responses.getLast?.map fun r => (r, t.status)
  | .fault _ => none
  | .refused _ => none

/-- The responses {0, 0, d} and {1, c, 0}. -/
def ok (d : Word) : Response := { fault := false, code := 0, data := d }
def bad (c : BitVec 3) : Response := { fault := true, code := c, data := 0 }

/-- The written cells of BANK[1] after a command. -/
def cells1 : Result → Option Memory
  | .next t => some t.bank1
  | .fault _ => none
  | .refused _ => none

/-- An outcome that is a next state. -/
def isNext : Result → Bool
  | .next _ => true
  | .fault _ => false
  | .refused _ => false

theorem next_of_isNext {r : Result} (h : isNext r = true) : ∃ t, r = .next t := by
  cases r with
  | next t => exact ⟨t, rfl⟩
  | fault _ => simp [isNext] at h
  | refused _ => simp [isNext] at h

/-! ### Well-formedness: its one check -/

theorem test_wf_refuses_register_3 : (Instr.rdreg 3).wf = false := by decide
theorem test_wf_admits_register_2 : (Instr.rdreg 2).wf = true := by decide

/-! ### Decoding: words written out from 30_encoding.md R50 and R59, field by field -/

theorem test_decode_nop : decode 0b0000_0000000000000000000000000000 = .ok .nop := by decide
theorem test_decode_config : decode 0b0001_0000_00000100_00000011_00000010 = .ok (.config 2 3 4) := by decide
theorem test_decode_rdreg : decode 0b0010_00000000000000000000000000_10 = .ok (.rdreg 2) := by decide
theorem test_decode_rdch : decode 0b0011_0_000_00000000_00000_10_011_010_001 = .ok (.rdch .display 1 2 3 2) := by decide
theorem test_decode_rdch_w : decode 0b0011_1_000_00000000_00000_10_000_000_001 = .ok (.rdch .write 1 0 0 2) := by decide
theorem test_decode_gcb : decode 0b0100_0_000_00000000_00000_01_000_010_000 = .ok (.gcb 0 2 0 1) := by decide
theorem test_decode_gcs : decode 0b0101_0_000_00000000_00000_10_001_001_001 = .ok (.gcs 1 1 1 2) := by decide
theorem test_decode_gvb : decode 0b0110_0_000_00000000_00000_00_111_110_101 = .ok (.gvb 5 6 7) := by decide
theorem test_decode_gvs : decode 0b0111_0_000_00000000_00000_00_010_001_000 = .ok (.gvs 0 1 2) := by decide
theorem test_decode_wrch : decode 0b1000_0_000_00001010_00000_10_001_000_001 = .ok (.wrch 1 0 1 2 10) := by decide
theorem test_decode_rdb : decode 0b1001_0_000_00000000_00000_00011000000 = .ok (.rdb .display 192) := by decide
theorem test_decode_rdb_w : decode 0b1001_1_000_00000000_00000_11111111111 = .ok (.rdb .write 2047) := by decide
theorem test_decode_appb : decode 0b1010_0000_00000000_00000000_10011000 = .ok (.appb 0x98) := by decide
theorem test_decode_appr : decode 0b1011_0000_00000000_00000101_10101011 = .ok (.appr 0xAB 5) := by decide
theorem test_decode_commit : decode 0b1100_0000000000000000000000000000 = .ok .commit := by decide
theorem test_decode_discard : decode 0b1101_0000000000000000000000000000 = .ok .discard := by decide
theorem test_decode_display : decode 0b1110_0000000000000000000000000000 = .ok .display := by decide

/-- The encoder on the words of V5, V6 and P4. -/
theorem test_encode :
    encode (.config 8 3 8) = 0x10080308 ∧ encode (.wrch 1 1 1 2 0) = 0x80000449 ∧
    encode (.appr 0x5A 192) = 0xB000C05A ∧ encode (.rdch .write 1 0 1 2) = 0x38000441 := by decide

/-- Vector V5: the further illegal words. -/
theorem test_illegal_words :
    decode 0x00000001 = .error .reservedBits ∧ decode 0x11010101 = .error .reservedBits ∧
    decode 0x20000004 = .error .reservedBits ∧ decode 0x30010000 = .error .reservedBits ∧
    decode 0x48000000 = .error .reservedBits ∧ decode 0x60000200 = .error .reservedBits ∧
    decode 0x80000800 = .error .reservedBits := by decide

theorem test_illegal_words_append :
    decode 0x90000800 = .error .reservedBits ∧ decode 0xA0000100 = .error .reservedBits ∧
    decode 0xB0010000 = .error .reservedBits ∧ decode 0xC0000001 = .error .reservedBits ∧
    decode 0xD0000001 = .error .reservedBits ∧ decode 0xE0000001 = .error .reservedBits := by decide

theorem test_illegal_opcode :
    decode 0xF0000000 = .error .reservedOpcode ∧ decode 0xFFFFFFFF = .error .reservedOpcode ∧
    decode 0x20000003 = .error .noSuchRegister := by decide

theorem test_table_word :
    decodeTableWord 32 0x40000449 = some (.gcb 1 1 1 2) ∧ decodeTableWord 8 0x1FF = none ∧
    decodeTableWord 64 0 = none := by decide

/-! ### Geometry and locations: vectors V1, V2, V3 -/

theorem test_buffer_sizes :
    [(1, 1, 1), (1, 1, 8), (1, 3, 1), (2, 1, 1), (2, 3, 4), (3, 1, 1), (3, 2, 2), (3, 3, 4), (4, 3, 8), (5, 3, 2),
      (7, 2, 4), (8, 1, 1), (8, 2, 1), (8, 3, 8)].map (fun g => frameBytes g.1 g.2.1 g.2.2) =
    [1, 1, 1, 1, 12, 4, 14, 41, 192, 94, 343, 64, 128, 1536] := by decide

theorem test_locations :
    [(8, 3, 8, 7, 7, 7, 2), (3, 1, 1, 2, 2, 2, 0), (5, 3, 2, 4, 4, 4, 2), (7, 2, 4, 6, 6, 6, 1), (3, 3, 4, 1, 0, 0, 1),
      (1, 1, 8, 0, 0, 0, 0), (2, 3, 4, 1, 1, 1, 2)].map (fun (a, b, c, x, y, z, h) =>
        (bitOffset b c (voxelIndex a x y z) h, byteIndex (bitOffset b c (voxelIndex a x y z) h),
          shiftOf .lsbFirst c (bitOffset b c (voxelIndex a x y z) h),
          shiftOf .msbFirst c (bitOffset b c (voxelIndex a x y z) h))) =
    [(12280, 1535, 0, 0), (26, 3, 2, 5), (748, 93, 4, 2), (2740, 342, 4, 0), (16, 2, 0, 4), (0, 0, 0, 0),
      (92, 11, 4, 0)] := by decide

theorem test_conversions :
    (List.range 4).map (toBrightness 2) = [0, 85, 170, 255] ∧ toBrightness 4 8 = 136 ∧ toBrightness 1 1 = 255 ∧
    toState 1 1 = 1 ∧ toState 1 0 = 0 ∧ toState 2 3 = 0 := by decide

/-! ### One step of each command -/

/-- V7 row 4. -/
theorem test_nop : answer (exec .nop State.reset) = some (ok 0, 0) := by decide

/-- V5 rows 3 and 9. -/
theorem test_config_sets :
    answer (exec (.config 8 3 8) (small 0 0x0E000000 [])) = some (ok 0, 0x0E800000) ∧
    answer (exec (.config 1 1 0) (small 0 0x06000000 [])) = some (bad 3, 0x0E000000) := by decide

/-- V5 row 12: RECONFIG wins over BADCFG. -/
theorem test_config_reconfig :
    answer (exec (.config 0 1 1) (small 0x00080308 0x0E800000 [])) = some (bad 4, 0x1E800000) := by decide

/-- V5 rows 10, 11 and 13, P5 row 3. -/
theorem test_rdreg :
    answer (exec (.rdreg 2) (small 0x00080308 0x0E800000 [])) = some (ok 1536, 0x0E800000) ∧
    answer (exec (.rdreg 1) (small 0x00080308 0x0E800000 [])) = some (ok 0x00080308, 0x0E800000) ∧
    answer (exec (.rdreg 3) (small 0x00080308 0x1C800000 [])) = some (bad 1, 0x1E800000) ∧
    answer (exec (.rdreg 2) State.reset) = some (ok 0, 0) := by decide

/-- V4, both bit orders. -/
theorem test_rdch :
    answer (exec (.rdch .display 1 1 1 2) (frameP2 .lsbFirst)) = some (ok 8, 0x00C00000) ∧
    answer (exec (.rdch .display 1 1 1 2) (frameP2 .msbFirst)) = some (ok 7, 0x00C00000) ∧
    answer (exec (.rdch .display 1 0 1 0) (frameP2 .lsbFirst)) = some (ok 15, 0x00C00000) := by decide

/-- V4: neutral before COORD. -/
theorem test_rdch_checks :
    answer (exec (.rdch .display 7 0 0 3) (frameP2 .lsbFirst)) = some (ok 0, 0x00C00000) ∧
    answer (exec (.rdch .display 2 0 0 0) (frameP2 .lsbFirst)) = some (bad 5, 0x20C00000) := by decide

/-- V4. -/
theorem test_gcb :
    answer (exec (.gcb 1 1 1 2) (frameP2 .lsbFirst)) = some (ok 136, 0x00C00000) ∧
    answer (exec (.gcb 0 0 0 0) (frameP2 .msbFirst)) = some (ok 17, 0x00C00000) ∧
    answer (exec (.gcb 0 2 0 1) (frameP2 .lsbFirst)) = some (bad 5, 0x20C00000) := by decide

/-- P5 row 26, V4. -/
theorem test_gcs :
    answer (exec (.gcs 0 0 1 0) (frameP5 .lsbFirst)) = some (ok 1, 0x02C00000) ∧
    answer (exec (.gcs 0 0 1 0) (frameP5 .msbFirst)) = some (ok 0, 0x02C00000) ∧
    answer (exec (.gcs 1 1 1 2) (frameP2 .lsbFirst)) = some (ok 0, 0x00C00000) := by decide

/-- P5 row 25, S6. -/
theorem test_gvb :
    answer (exec (.gvb 0 0 1) (frameP5 .lsbFirst)) = some (ok 255, 0x02C00000) ∧
    answer (exec (.gvb 7 7 7) (frameP2 .lsbFirst)) = some (ok 0, 0x00C00000) := by decide

/-- P5 rows 20 to 22. -/
theorem test_gvs :
    answer (exec (.gvs 0 0 2) (frameP5 .lsbFirst)) = some (ok 1, 0x02C00000) ∧
    answer (exec (.gvs 2 2 2) (frameP5 .lsbFirst)) = some (ok 0, 0x02C00000) ∧
    answer (exec (.gvs 1 2 0) (frameP5 .msbFirst)) = some (ok 1, 0x02C00000) := by decide

/-- V6 rows 7 and 8, both bit orders. -/
theorem test_wrch_packs :
    cells1 (exec (.wrch 1 0 1 2 10) (fullV6 .lsbFirst)) =
      some (bytes [0, 0, 0, 0, 0, 0, 0xFF, 0xFF, 0xAF, 0xFF, 0xFF, 0xFF]) ∧
    cells1 (exec (.wrch 1 0 1 2 10) (fullV6 .msbFirst)) =
      some (bytes [0, 0, 0, 0, 0, 0, 0xFF, 0xFF, 0xFA, 0xFF, 0xFF, 0xFF]) := by decide

/-- V6 rows 14, 15 and 17. -/
theorem test_wrch_checks :
    answer (exec (.wrch 0 0 0 0 16) (fullV6 .lsbFirst)) = some (bad 6, 0x4080000C) ∧
    answer (exec (.wrch 7 0 0 3 5) (fullV6 .lsbFirst)) = some (ok 0, 0x0080000C) ∧
    answer (exec (.wrch 2 0 0 0 16) (fullV6 .lsbFirst)) = some (bad 5, 0x2080000C) := by decide

/-- V4. -/
theorem test_rdb :
    answer (exec (.rdb .display 11) (frameP2 .lsbFirst)) = some (ok 0x87, 0x00C00000) ∧
    answer (exec (.rdb .display 12) (frameP2 .lsbFirst)) = some (bad 7, 0x80C00000) ∧
    answer (exec (.rdb .write 6) (fullV6 .lsbFirst)) = some (ok 0xFF, 0x0080000C) := by decide

/-- P5 row 10; V8 row 8. -/
theorem test_appb :
    answer (exec (.appb 4) (small 0x00010103 0x02801000 (bytes [1, 2]))) = some (ok 1, 0x02801800) ∧
    cells1 (exec (.appb 4) (small 0x00010103 0x02801000 (bytes [1, 2]))) = some (bytes [1, 2, 4]) ∧
    answer (exec (.appb 0x22) (fullV6 .lsbFirst)) = some (ok 0, 0x0080000C) := by decide

/-- S2: fills mid-pair after pending bytes. -/
theorem test_appr_truncates :
    answer (exec (.appr 0xAB 5) partV8) = some (ok 2, 0x00802008) ∧
    cells1 (exec (.appr 0xAB 5) partV8) = some (bytes [0, 0, 0, 0, 0, 0, 0, 0, 0, 0, 0xAB, 0xAB]) := by decide

/-- S2: room for all; V8 row 5: RUN = 0. -/
theorem test_appr_room :
    answer (exec (.appr 0xAB 5) emptyV8) = some (ok 5, 0x00802800) ∧
    answer (exec (.appr 0x11 0) emptyV8) = some (ok 0, 0x00800000) := by decide

/-- V8 rows 7 and 10. -/
theorem test_commit :
    answer (exec .commit (small 0x00040302 0x00806000 [])) = some (ok 1, 0x0080000C) ∧
    answer (exec .commit (fullV6 .lsbFirst)) = some (ok 1, 0x0080000C) := by decide

/-- V8 row 16. -/
theorem test_discard :
    answer (exec .discard (small 0x00040302 0x00C02000 (bytes [1]))) = some (ok 0, 0x00C00000) ∧
    cells1 (exec .discard (small 0x00040302 0x00C02000 (bytes [1]))) = some (bytes [1]) := by decide

/-- V8 rows 4, 11 and 14. -/
theorem test_display :
    answer (exec .display (fullV6 .lsbFirst)) = some (ok 1, 0x00C00000) ∧
    answer (exec .display (small 0x00040302 0x00806000 [])) = some (ok 0, 0x00800000) ∧
    answer (exec .display (small 0x00040302 0x00C0000B [])) = some (ok 0, 0x00C00000) := by decide

/-- V5 rows 1 and 2: ILLEGAL wins over NOCFG; P5 row 5. -/
theorem test_prelude :
    answer (executeWord 0x40000800 State.reset) = some (bad 1, 0x02000000) ∧
    answer (executeWord 0x40000000 (small 0 0x02000000 [])) = some (bad 2, 0x06000000) ∧
    answer (executeWord 0x00000001 State.reset) = some (bad 1, 0x02000000) := by decide

/-- A word offered after reset is the one that the next step runs (V7 row 2). -/
theorem test_step : answer (step (State.reset.withFetchWord 32 0x20000001)) = some (ok 0, 0) := by decide

/-- 70_reset_and_hazards.md R107: a reset event. -/
theorem test_reset_event :
    step { frameP2 .lsbFirst with port := [.reset] } = .next { State.reset with draw := 1 } := rfl

/-- A write keeps the cells sorted, and a second write of an index replaces the first. -/
theorem test_store :
    store (store (store [] 5 1) 2 7) 5 9 = [(2, 7), (5, 9)] ∧ Memory.wf [(2, 7), (5, 9)] = true ∧
    Memory.wf [(5, 9), (2, 7)] = false ∧ Memory.wf [(1536, 0)] = false ∧ Memory.wf [(1535, 0)] = true := by decide

/-! ### The controller's side: 30_encoding.md R60, R61, P4 row 14, S8 -/

theorem test_controller :
    fill 0x5A 192 = [.appr 0x5A 192] ∧ (fill 0 1536).length = 7 ∧ handshakeBytes 0x00040302 = [2, 3, 4] ∧
    StreamEvent.commands .handshake = [.rdreg 1] ∧ displayReply 1 = .frameDisplayed ∧ frameAt 12 1 = 25 := by decide

/-! ### Witnesses of the statements' hypotheses

For each command: a word that its EncodedAs clause takes as legal and one that it takes as illegal, and for each clause of its
behaviour a state and operands that meet the clause's hypotheses, at a boundary where the clause has one. -/

/-- `good` meets the hypotheses of an EncodedAs of these fixed bits, and `ill` those of its second half. -/
abbrev WordsOf (code : BitVec 4) (mask pat good ill : Word) : Prop :=
  good.extractLsb' 28 4 = code ∧ good &&& mask = pat ∧ ill.extractLsb' 28 4 = code ∧ ill &&& mask ≠ pat

theorem witness_words :
    WordsOf 0x0 0xFFFFFFFF 0x00000000 0x00000000 0x00000001 ∧ WordsOf 0x1 0xFF000000 0x10000000 0x10FFFFFF 0x11010101 ∧
    WordsOf 0x3 0xF7FFF800 0x30000000 0x380007FF 0x30010000 ∧ WordsOf 0x4 0xFFFFF800 0x40000000 0x400007FF 0x48000000 ∧
    WordsOf 0x5 0xFFFFF800 0x50000000 0x500007FF 0x50000800 ∧ WordsOf 0x6 0xFFFFFE00 0x60000000 0x600001FF 0x60000200 ∧
    WordsOf 0x7 0xFFFFFE00 0x70000000 0x700001FF 0x78000000 ∧ WordsOf 0x8 0xFF00F800 0x80000000 0x80FF07FF 0x80000800 ∧
    WordsOf 0x9 0xF7FFF800 0x90000000 0x980007FF 0x90000800 ∧ WordsOf 0xA 0xFFFFFF00 0xA0000000 0xA00000FF 0xA0000100 ∧
    WordsOf 0xB 0xFFFF0000 0xB0000000 0xB000FFFF 0xB0010000 ∧ WordsOf 0xC 0xFFFFFFFF 0xC0000000 0xC0000000 0xC0000001 ∧
    WordsOf 0xD 0xFFFFFFFF 0xD0000000 0xD0000000 0xD0000001 ∧ WordsOf 0xE 0xFFFFFFFF 0xE0000000 0xE0000000 0xE0000001 := by
  decide

theorem witness_words_rdreg :
    WordsOf 0x2 0xFFFFFFFC 0x20000000 0x20000002 0x20000004 ∧ (0x20000002#32).extractLsb' 0 2 ≠ 3 ∧
    (0x20000003#32).extractLsb' 28 4 = 0x2#4 ∧ (0x20000003#32).extractLsb' 0 2 = 3 := by decide

/-- CONFIG: configured; not legal just outside each bound; legal at both ends. -/
abbrev GeomLegal (side count size : BitVec 8) : Prop :=
  1 ≤ side.toNat ∧ side.toNat ≤ 8 ∧ 1 ≤ count.toNat ∧ count.toNat ≤ 3 ∧ size.toNat ∈ [1, 2, 4, 8]

theorem witness_config :
    emptyV8.status.getLsbD 23 = true ∧ State.reset.status.getLsbD 23 = false ∧
    ¬ GeomLegal 0 1 1 ∧ ¬ GeomLegal 9 1 1 ∧ ¬ GeomLegal 1 0 1 ∧ ¬ GeomLegal 1 4 1 ∧ ¬ GeomLegal 1 1 0 ∧ ¬ GeomLegal 1 1 3 ∧
    ¬ GeomLegal 1 1 16 ∧ GeomLegal 1 1 1 ∧ GeomLegal 8 3 8 := by decide

/-- Every command that faults NOCFG: the state before CONFIG meets the invariant. -/
theorem witness_nocfg : State.reset.Inv ∧ State.reset.status.getLsbD 23 = false := by decide

/-- RDCH, GCB, WRCH: a channel the geometry lacks; a channel it has with x just outside the cube, and the last voxel. -/
theorem witness_channel_clauses :
    (frameP2 .lsbFirst).Inv ∧ (frameP2 .lsbFirst).status.getLsbD 23 = true ∧
    channelCountOf (frameP2 .lsbFirst).geom ≤ (3#2).toNat ∧ (2#2).toNat < channelCountOf (frameP2 .lsbFirst).geom ∧
    ¬ (frameP2 .lsbFirst).InCube 2 0 0 ∧ ¬ (frameP2 .lsbFirst).InCube 1 2 1 ∧ ¬ (frameP2 .lsbFirst).InCube 1 1 2 ∧
    (frameP2 .lsbFirst).InCube 1 1 1 := by decide

/-- WRCH: a value one above channelMaxValue, and channelMaxValue itself. -/
theorem witness_wrch_values :
    (fullV6 .msbFirst).Inv ∧ (fullV6 .msbFirst).status.getLsbD 23 = true ∧
    (2#2).toNat < channelCountOf (fullV6 .msbFirst).geom ∧ (fullV6 .msbFirst).InCube 1 1 1 ∧
    2 ^ channelSizeOf (fullV6 .msbFirst).geom - 1 < (16#8).toNat ∧
    (15#8).toNat ≤ 2 ^ channelSizeOf (fullV6 .msbFirst).geom - 1 := by decide

/-- GCS, GVB, GVS: a geometry with channelCount = channelSize = 1, outside and inside the cube; and geometries where one of
them is not 1. -/
theorem witness_voxel_clauses :
    (frameP5 .lsbFirst).Inv ∧ (frameP5 .lsbFirst).status.getLsbD 23 = true ∧
    channelCountOf (frameP5 .lsbFirst).geom = 1 ∧ channelSizeOf (frameP5 .lsbFirst).geom = 1 ∧
    (0#2).toNat < channelCountOf (frameP5 .lsbFirst).geom ∧ channelCountOf (frameP5 .lsbFirst).geom ≤ (1#2).toNat ∧
    ¬ (frameP5 .lsbFirst).InCube 3 0 0 ∧ (frameP5 .lsbFirst).InCube 2 2 2 ∧
    channelCountOf (frameP2 .lsbFirst).geom ≠ 1 ∧ channelSizeOf (frameP2 .lsbFirst).geom ≠ 1 := by decide

/-- RDB: the last index of the frame and the first past it, in a small geometry and in the largest. -/
theorem witness_rdb :
    (frameP2 .lsbFirst).Inv ∧ (frameP2 .lsbFirst).status.getLsbD 23 = true ∧
    (11#11).toNat < specBufferSize (frameP2 .lsbFirst).geom ∧ specBufferSize (frameP2 .lsbFirst).geom ≤ (12#11).toNat ∧
    largest.Inv ∧ largest.status.getLsbD 23 = true ∧
    (1535#11).toNat < specBufferSize largest.geom ∧ specBufferSize largest.geom ≤ (1536#11).toNat := by decide

/-- APPB: room for one byte and none; APPR: any configured state. -/
theorem witness_append :
    partV8.Inv ∧ partV8.status.getLsbD 23 = true ∧ partV8.stride + partV8.pending < specBufferSize partV8.geom ∧
    (fullV6 .lsbFirst).Inv ∧ (fullV6 .lsbFirst).status.getLsbD 23 = true ∧
    specBufferSize (fullV6 .lsbFirst).geom ≤ (fullV6 .lsbFirst).stride + (fullV6 .lsbFirst).pending := by decide

/-- COMMIT: a sum that fits exactly, and one that does not (in a state that no run reaches). DISCARD: any configured state. -/
theorem witness_commit :
    (fullV6 .lsbFirst).status.getLsbD 23 = true ∧
    (fullV6 .lsbFirst).stride + (fullV6 .lsbFirst).pending ≤ specBufferSize (fullV6 .lsbFirst).geom ∧
    specBufferSize (fullV6 .lsbFirst).geom ≤ 1536 ∧
    overfull.status.getLsbD 23 = true ∧ specBufferSize overfull.geom < overfull.stride + overfull.pending := by decide

/-- DISPLAY: a full frame, and one byte short of it. -/
theorem witness_display :
    (fullV6 .lsbFirst).status.getLsbD 23 = true ∧
    (fullV6 .lsbFirst).stride = specBufferSize (fullV6 .lsbFirst).geom ∧
    (small 0x00040302 0x00C0000B []).status.getLsbD 23 = true ∧
    (small 0x00040302 0x00C0000B []).stride ≠ specBufferSize (small 0x00040302 0x00C0000B []).geom := by decide

/-- DecodeOfEncode, EncodeOfDecode. -/
theorem witness_encoding :
    (Instr.wrch 7 7 7 3 255).wf = true ∧ decode 0x80FF07FF = .ok (.wrch 7 7 7 3 255) ∧
    encode (.wrch 7 7 7 3 255) = 0x80FF07FF := by decide

/-- StepRunsTheDecodedCommand and FaultBitsAreSticky: one port for each clause. -/
theorem witness_step :
    State.reset.port = [] ∧
    (emptyV8.offer 0x30000449).port = .command 0x30000449 :: [] ∧ decode 0x30000449 = .ok (.rdch .display 1 1 1 2) ∧
    (emptyV8.offer 0x20000003).port = .command 0x20000003 :: [] ∧ decode 0x20000003 = .error .noSuchRegister ∧
    ({ emptyV8 with port := [.reset] } : State).port = .reset :: [] := by decide

/-- PreludeOrder: an illegal word, a data command before CONFIG, and a legal word. -/
theorem witness_prelude :
    decode 0x40000800 = .error .reservedBits ∧ decode 0xA0000001 = .ok (.appb 1) ∧ isDataCommand (.appb 1) = true ∧
    State.reset.status.getLsbD 23 = false := by decide

/-- EveryWordIsAnsweredOnce, EveryRunCompletes, DecodeCommandsAreReadOnly: a decode command in a state that meets the
invariant. -/
theorem witness_answered :
    (frameP2 .lsbFirst).Inv ∧ decode 0x40000449 = .ok (.gcb 1 1 1 2) ∧ isDecodeCommand (.gcb 1 1 1 2) = true ∧
    isNext (exec (.gcb 1 1 1 2) (frameP2 .lsbFirst)) = true := by decide

/-- FaultHasNoOtherEffect, FaultBitsAreSticky: a word that faults, in a state that meets the invariant. -/
theorem witness_fault :
    ∃ t, executeWord 0x90000001 (small 0x00010102 0x00800000 []) = .next t ∧
      t.responses = (small 0x00010102 0x00800000 []).responses ++ [bad 7] ∧ (bad 7).fault = true ∧
      (bad 7).code.toNat = 7 ∧ (small 0x00010102 0x00800000 []).Inv ∧
      (small 0x00010102 0x00800000 []).status.getLsbD (24 + 7) = false ∧ t.status.getLsbD (24 + 7) = true := by
  refine ⟨_, rfl, ?_⟩
  decide

/-- FaultBitsAreSticky: a command that does not fault, and a bit already set. -/
theorem witness_sticky_kept :
    ∃ t, executeWord 0x20000000 (frameP5 .lsbFirst) = .next t ∧
      t.responses = (frameP5 .lsbFirst).responses ++ [ok 0x02C00000] ∧ (ok 0x02C00000).fault = false ∧
      (frameP5 .lsbFirst).status.getLsbD (24 + 1) = true := by
  refine ⟨_, rfl, ?_⟩
  decide

/-- EveryStepKeepsInvariant, EveryStepKeepsAssembled: a step that stores, and one that swaps. -/
theorem witness_step_keeps :
    (partV8.offer 0xB00005AB).Inv ∧ (partV8.offer 0xB00005AB).Assembled ∧
    isNext (step (partV8.offer 0xB00005AB)) = true ∧
    ((fullV6 .lsbFirst).offer 0xE0000000).Inv ∧ ((fullV6 .lsbFirst).offer 0xE0000000).Assembled ∧
    isNext (step ((fullV6 .lsbFirst).offer 0xE0000000)) = true := by decide

/-- PublishedFrameHoldsNoDraw: the swap that publishes, and a later command. -/
theorem witness_published :
    (fullV6 .lsbFirst).Ready ∧ (fullV6 .lsbFirst).Assembled ∧
    (fullV6 .lsbFirst).stride = specBufferSize (fullV6 .lsbFirst).geom ∧
    isNext (exec .display (fullV6 .lsbFirst)) = true ∧
    (frameP2 .lsbFirst).Ready ∧ (frameP2 .lsbFirst).Assembled ∧ (frameP2 .lsbFirst).FrameWritten ∧
    isNext (exec (.appb 1) (frameP2 .lsbFirst)) = true := by decide

/-- CommandsKeepTheEnvironment, CursorWriters, WhichBytesCommandsWrite, OnlyFullDisplayInvertsSelect: each kind of command
answers a next state in a state that is Ready. -/
theorem witness_commands :
    partV8.Ready ∧ ∀ i ∈ [Instr.commit, .discard, .display, .appb 1, .appr 1 9, .wrch 1 1 1 2 3, .rdb .write 9, .gvs 7 7 7],
      isNext (exec i partV8) = true := by decide

/-- CursorWriters: a fault leaves the cursor. -/
theorem witness_cursor_fault : partV8.Ready ∧ answer (exec (.rdb .display 12) partV8) = some (bad 7, 0x80801008) := by decide

/-- ReservedBitsNeverWritten, GeometryFixedUntilReset: the CONFIG that sets the geometry, and one that comes too late. -/
theorem witness_geometry :
    State.reset.Inv ∧ State.reset.status.getLsbD 23 = false ∧
    answer (executeWord 0x10040302 State.reset) = some (ok 0, 0x00800000) ∧
    emptyV8.status.getLsbD 23 = true ∧ answer (exec (.config 2 3 4) emptyV8) = some (bad 4, 0x10800000) := by decide

/-- DecodeSeesOnlyThePublishedFrame: two states that differ in STRIDE, PENDING and a write-bank byte. -/
theorem witness_published_frame_only :
    ∃ s s' : State, s = frameP2 .lsbFirst ∧ s' = { frameP2 .lsbFirst with status := 0x00C00801, bank0 := [(0, 7)] } ∧
      readsDisplay (.gcb 1 1 1 2) = true ∧ s.Inv ∧ s'.Inv ∧ s'.geom = s.geom ∧ s'.bitOrder = s.bitOrder ∧
      s'.status.getLsbD 23 = s.status.getLsbD 23 ∧ ∀ j < specBufferSize s.geom, s'.byteAt s'.DB j = s.byteAt s.DB j := by
  refine ⟨_, _, rfl, rfl, by decide, by decide, by decide, rfl, rfl, by decide, fun _ _ => rfl⟩

/-- FrameStaysUntilNextSwap: an append, a COMMIT and a failing DISPLAY. -/
theorem witness_frame_stays :
    ∃ t, runInstrs [.appb 0x5A, .commit, .display] (frameP2 .lsbFirst) = .next t ∧
      ∀ (pre : List Instr) (u : State), pre <+: [.appb 0x5A, .commit, .display] →
        runInstrs pre (frameP2 .lsbFirst) = .next u →
        u.status.getLsbD 22 = (frameP2 .lsbFirst).status.getLsbD 22 := by
  have all : ∀ pre ∈ [[], [Instr.appb 0x5A], [.appb 0x5A, .commit], [.appb 0x5A, .commit, .display]],
      (match runInstrs pre (frameP2 .lsbFirst) with
        | .next u => u.status.getLsbD 22 | .fault _ => true | .refused _ => true) = true := by decide
  obtain ⟨t, ht⟩ := next_of_isNext (r := runInstrs [.appb 0x5A, .commit, .display] (frameP2 .lsbFirst)) (by decide)
  refine ⟨t, ht, fun pre u hp hu => ?_⟩
  have mem : pre ∈ [[], [Instr.appb 0x5A], [.appb 0x5A, .commit], [.appb 0x5A, .commit, .display]] := by
    have := List.mem_inits pre _ |>.2 hp
    simpa using this
  have h := all pre mem
  rw [hu] at h
  exact h.trans (by decide)

/-- SwapExchangesTheBanks. -/
theorem witness_swap :
    ∃ t, (fullV6 .lsbFirst).status.getLsbD 23 = true ∧ exec .display (fullV6 .lsbFirst) = .next t ∧
      Responds (fullV6 .lsbFirst) t 1 := ⟨_, by decide, rfl, rfl⟩

/-- DisplaySucceedsOnFullSum: a committed sum equal to bufferSize, and one byte less (S7). -/
theorem witness_full_sum :
    emptyV8.Ready ∧ emptyV8.stride = 0 ∧ emptyV8.pending = 0 ∧
    isNext (runInstrs [.appr 0x11 12, .commit] emptyV8) = true ∧
    committedBy [.appr 0x11 12, .commit] emptyV8 = specBufferSize emptyV8.geom ∧
    isNext (runInstrs [.appr 0x33 11, .commit] emptyV8) = true ∧
    committedBy [.appr 0x33 11, .commit] emptyV8 < specBufferSize emptyV8.geom ∧
    ∀ i ∈ [Instr.appr 0x11 12, .appr 0x33 11, .commit], i ≠ .display := by decide

/-- FrameIndependentOfOldBytes: two states that differ in both banks, and a run that fills the frame. -/
theorem witness_old_bytes :
    ∃ s s' t t' : State, s = emptyV8 ∧ s' = { emptyV8 with bank0 := [(3, 9)], bank1 := [(0, 0xEE), (11, 0xEE)] } ∧
      s.Ready ∧ s'.Ready ∧ s'.geom = s.geom ∧ s'.status = s.status ∧ s'.bitOrder = s.bitOrder ∧ s.stride = 0 ∧
      s.pending = 0 ∧ (∀ i ∈ [Instr.appr 0x11 12, .commit], i ≠ .display) ∧
      runInstrs [.appr 0x11 12, .commit] s = .next t ∧ runInstrs [.appr 0x11 12, .commit] s' = .next t' ∧
      t.stride = specBufferSize t.geom := by
  refine ⟨_, _, _, _, rfl, rfl, by decide, by decide, rfl, rfl, rfl, by decide, by decide, by decide, rfl, rfl, by decide⟩

/-- ChunksAppendTheirBytes, FillCommitDisplayPublishes, BufferSizeRange (whose second clause has witness_nocfg). -/
theorem witness_assembly :
    emptyV8.Ready ∧ emptyV8.stride = 0 ∧ emptyV8.pending = 0 ∧ partV8.Ready ∧ largest.Ready :=
  ⟨by decide, by decide, by decide, by decide, by decide⟩

/-- ChannelInsideOneByte at the last channel of the largest geometry; BrightnessLaws at the top of the largest range. -/
theorem witness_codec :
    1 ≤ 8 ∧ 8 ≤ 8 ∧ 1 ≤ 3 ∧ 3 ≤ 3 ∧ 8 ∈ [1, 2, 4, 8] ∧ 7 < 8 ∧ 2 < 3 ∧ 254 < 255 ∧ 255 ≤ 2 ^ 8 - 1 := by decide

/-- WrchThenRdchReturnsValue: the largest value at the last channel of a full write bank, either bit order. -/
theorem witness_round_trip :
    ∀ o ∈ [Config.BitOrder.lsbFirst, .msbFirst],
      (fullV6 o).Ready ∧ (fullV6 o).InCube 1 1 1 ∧ (2#2).toNat < channelCountOf (fullV6 o).geom ∧
      (15#8).toNat ≤ 2 ^ channelSizeOf (fullV6 o).geom - 1 ∧ (fullV6 o).stride = specBufferSize (fullV6 o).geom := by decide

/-- WrchLeavesOtherChannels: two channels that share a byte. -/
theorem witness_other_channel :
    (fullV6 .lsbFirst).Ready ∧ (fullV6 .lsbFirst).InCube 1 0 0 ∧ (fullV6 .lsbFirst).InCube 1 0 0 ∧
    (1#2).toNat < channelCountOf (fullV6 .lsbFirst).geom ∧ (2#2).toNat < channelCountOf (fullV6 .lsbFirst).geom ∧
    ((1 : BitVec 3), (0 : BitVec 3), (0 : BitVec 3), (1 : BitVec 2)) ≠ (1, 0, 0, 2) ∧
    (fullV6 .lsbFirst).specByte 1 0 0 1 = (fullV6 .lsbFirst).specByte 1 0 0 2 ∧
    isNext (exec (.wrch 1 0 0 1 10) (fullV6 .lsbFirst)) = true := by decide

/-- WrchKeepsPaddingBits: the first padding bit of the one byte of geometry (1, 3, 1), for each bit order. -/
theorem witness_padding :
    (padded .lsbFirst).Ready ∧ isNext (exec (.wrch 0 0 0 2 0) (padded .lsbFirst)) = true ∧ 3 < 8 ∧
    cubeSideOf (padded .lsbFirst).geom ^ 3 * channelCountOf (padded .lsbFirst).geom *
      channelSizeOf (padded .lsbFirst).geom ≤ 8 * 0 + 3 ∧
    (padded .msbFirst).Ready ∧ isNext (exec (.wrch 0 0 0 2 0) (padded .msbFirst)) = true ∧ 4 < 8 ∧
    cubeSideOf (padded .msbFirst).geom ^ 3 * channelCountOf (padded .msbFirst).geom *
      channelSizeOf (padded .msbFirst).geom ≤ 8 * 0 + (7 - 4) := by decide

/-- The model's one stop, in a state that no run reaches, whose geometry places a channel past the bank (assumption log 7). -/
theorem test_bank_index_stops :
    isNext (exec (.rdch .display 7 7 7 2) (small 0x00FFFF08 0x00800000 [])) = false ∧
    ¬ (small 0x00FFFF08 0x00800000 []).Inv := by decide

end Sys2Proof.Tests
end

section
/-! Every run completes (00_scope.md R5, 70_reset_and_hazards.md R119): from a state that meets the invariant every command
reaches a next state, answers once and keeps the invariant; a run does so by induction over its words. -/

namespace Sys2Proof.Machine

/-! ### One response a command -/

/-- A command that answers a next state has added exactly one response. -/
theorem Effect.answersOnce {s t : State} {i : Instr} (h : Effect s i t) :
    ∃ r, t.responses = s.responses ++ [r] := by
  cases h with
  | responded | faulted | configured | committed | notCommitted | discarded | displayed | notDisplayed => exact ⟨_, rfl⟩
  | packed => exact ⟨_, by rw [respond_responses, storeByte_responses]⟩
  | appended => exact ⟨_, by rw [respond_responses, withStatus_responses, storeByte_responses]⟩
  | ran => exact ⟨_, by rw [respond_responses, withStatus_responses, storeBytes_responses]⟩

/-! ### The reserved bit of STATE under the writes of its fields -/

theorem reservedBit_setSticky (w : Word) (c : FaultCode) : (setSticky w c).getLsbD 24 = w.getLsbD 24 := by
  have h : ¬ 24 = 24 + c.number := by cases c <;> decide
  rw [getLsbD_setSticky, decide_eq_false h, Bool.or_false]

theorem reservedBit_setPending (w : Word) (n : Nat) : (setPending w n).getLsbD 24 = w.getLsbD 24 := by
  rw [getLsbD_setPending, if_neg (by omega)]

theorem reservedBit_setStride (w : Word) (n : Nat) : (setStride w n).getLsbD 24 = w.getLsbD 24 := by
  rw [getLsbD_setStride, if_neg (by omega)]

theorem reservedBit_setDispSel (w : Word) (b : Bool) : (setDispSel w b).getLsbD 24 = w.getLsbD 24 := by
  rw [getLsbD_setDispSel, if_neg (by omega)]

theorem reservedBit_setCfgValid (w : Word) (b : Bool) : (setCfgValid w b).getLsbD 24 = w.getLsbD 24 := by
  rw [getLsbD_setCfgValid, if_neg (by omega)]

theorem reservedBit_clearCursor (w : Word) : (clearCursor w).getLsbD 24 = w.getLsbD 24 :=
  getLsbD_clearCursor w 24 (by omega)

/-! ### The invariant under the updates of the state -/

theorem State.Inv.after_respond {s : State} (h : s.Inv) (d : Word) : (respond d s).Inv := h

theorem State.Inv.after_raiseFault {s : State} (h : s.Inv) (c : FaultCode) : (raiseFault c s).Inv := by
  obtain ⟨hcursor, ⟨hstatus, hgeom⟩, hbanks⟩ := h
  exact ⟨by simpa [State.CursorInv] using hcursor, ⟨(reservedBit_setSticky _ c).trans hstatus, hgeom⟩, hbanks⟩

theorem State.Inv.cells_wf {s : State} (h : s.Inv) (b : BankId) : Memory.wf (s.cells b) = true := by
  obtain ⟨-, -, hbank0, hbank1⟩ := h
  cases b with
  | bank0 => exact hbank0
  | bank1 => exact hbank1

theorem State.Inv.after_withCells {s : State} (h : s.Inv) (b : BankId) {m : Memory} (hm : Memory.wf m = true) :
    (s.withCells b m).Inv := by
  obtain ⟨hcursor, hreserved, hbank0, hbank1⟩ := h
  cases b with
  | bank0 => exact ⟨hcursor, hreserved, hm, hbank1⟩
  | bank1 => exact ⟨hcursor, hreserved, hbank0, hm⟩

theorem State.Inv.after_storeByte {s : State} (h : s.Inv) (b : BankId) {i : Nat} (v : Byte)
    (hi : i < Config.bankBytes) : (s.storeByte b i v).Inv :=
  h.after_withCells b (wf_store _ i v hi (h.cells_wf b))

theorem State.Inv.after_storeBytes {s : State} (h : s.Inv) (b : BankId) {p n : Nat} (v : Byte)
    (hn : n = 0 ∨ p + n ≤ Config.bankBytes) : (s.storeBytes b p v n).Inv :=
  h.after_withCells b (wf_storeRun _ p v n hn (h.cells_wf b))

/-- A configured state keeps the invariant under a new STATE word that stays configured, has the old reserved bit and has
its cursor inside the frame. -/
theorem State.Ready.inv_withStatus {s : State} (h : s.Ready) {w : Word} (hcfg : cfgValidOf w = true)
    (hbit : w.getLsbD 24 = s.status.getLsbD 24) (hfit : strideOf w + pendingOf w ≤ s.bufferSize) :
    (s.withStatus w).Inv := by
  obtain ⟨-, ⟨hstatus, hgeom⟩, hbanks⟩ := h.1
  refine ⟨⟨fun hoff => ?_, fun _ => ⟨h.legal, hfit⟩⟩, ⟨hbit.trans hstatus, hgeom⟩, hbanks⟩
  exact absurd (hcfg.symm.trans hoff) (by decide)

/-- A new PENDING keeps the invariant when the cursor stays inside the frame. -/
theorem State.Ready.inv_setPending {s : State} (h : s.Ready) {n : Nat} (hfit : s.stride + n ≤ s.bufferSize) :
    (s.withStatus (setPending s.status n)).Inv := by
  refine h.inv_withStatus (by simpa using h.2) (reservedBit_setPending _ n) ?_
  rw [strideOf_setPending, pendingOf_setPending]
  exact (Nat.add_le_add_left (Nat.mod_le n 2048) _).trans hfit

/-- A cleared cursor keeps the invariant, whichever bank is displayed. -/
theorem State.Ready.inv_clearCursor {s : State} (h : s.Ready) {w : Word} (hcfg : cfgValidOf w = true)
    (hbit : w.getLsbD 24 = s.status.getLsbD 24) : (s.withStatus (clearCursor w)).Inv :=
  h.inv_withStatus (by simpa using hcfg) ((reservedBit_clearCursor w).trans hbit) (by simp)

/-- CONFIG with a legal geometry (40_system.md R66) establishes the configured half of the invariant. -/
theorem State.Inv.after_configure {s : State} (h : s.Inv) (hc : cfgValidOf s.status = false)
    {side count size : BitVec 8} (hlegal : legalGeom side.toNat count.toNat size.toNat = true) :
    ({ s with geom := setGeometry s.geom side count size, status := setCfgValid s.status true } : State).Inv := by
  obtain ⟨⟨hunconfigured, -⟩, ⟨hstatus, hgeom⟩, hbanks⟩ := h
  obtain ⟨hstride, hpending, -, -⟩ := hunconfigured hc
  have hword : legalWord (setGeometry s.geom side count size) = true := by
    rwa [legalWord, cubeSideOf_setGeometry, channelCountOf_setGeometry, channelSizeOf_setGeometry]
  have hreserved : (setGeometry s.geom side count size).extractLsb' 24 8 = 0 := by
    rw [← hgeom]
    refine BitVec.eq_of_getLsbD_eq fun j _ => ?_
    rw [BitVec.getLsbD_extractLsb', BitVec.getLsbD_extractLsb', getLsbD_setGeometry _ _ _ _ _ (by omega)]
  have hfit : strideOf (setCfgValid s.status true) + pendingOf (setCfgValid s.status true) = 0 := by
    rw [strideOf_setCfgValid, pendingOf_setCfgValid]
    exact Nat.add_eq_zero_iff.2 ⟨hstride, hpending⟩
  refine ⟨⟨fun hoff => ?_, fun _ => ⟨hword, hfit ▸ Nat.zero_le _⟩⟩,
    ⟨(reservedBit_setCfgValid _ _).trans hstatus, hreserved⟩, hbanks⟩
  exact absurd ((cfgValidOf_setCfgValid _ _).symm.trans hoff) (by decide)

/-! ### The invariant under a command -/

/-- Every next state that a command answers from a state that meets the invariant meets it too (10_state.md R26). -/
theorem Effect.keepsInv {s t : State} {i : Instr} (h : Effect s i t) (hinv : s.Inv) : t.Inv := by
  cases h with
  | responded d => exact hinv.after_respond _
  | faulted c => exact hinv.after_raiseFault _
  | configured side count size hc hlegal => exact (hinv.after_configure hc hlegal).after_respond _
  | packed x y z ch value hc hch hcube hvalue hbank => exact (hinv.after_storeByte _ _ hbank).after_respond _
  | appended byte hc hroom hbank =>
    have hstored : (s.storeByte s.writeBank s.appendIndex byte).Ready :=
      ⟨hinv.after_storeByte _ _ hbank, by simpa using hc⟩
    have hpending := hstored.inv_setPending (n := s.pending + 1) (by simpa [← Nat.add_assoc] using hroom)
    rw [storeByte_status] at hpending
    exact hpending.after_respond _
  | ran byte run hc hbank =>
    have hstored : (s.storeBytes s.writeBank s.appendIndex byte (s.runLength run)).Ready :=
      ⟨hinv.after_storeBytes _ _ hbank, by simpa using hc⟩
    have hrun := (State.Ready.run_le ⟨hinv, hc⟩ run).1
    have hpending := hstored.inv_setPending (n := s.pending + s.runLength run) (by simpa [Nat.add_assoc] using hrun)
    rw [storeBytes_status] at hpending
    exact hpending.after_respond _
  | committed hc hfit =>
    have hready : s.Ready := ⟨hinv, hc⟩
    refine (hready.inv_withStatus (by simpa using hc) ?_ ?_).after_respond _
    · rw [reservedBit_setPending, reservedBit_setStride]
    · simpa using (Nat.mod_le _ 2048).trans hfit
  | notCommitted hc hfit => exact absurd (State.Ready.cursor ⟨hinv, hc⟩) hfit
  | discarded hc =>
    have hready : s.Ready := ⟨hinv, hc⟩
    exact (hready.inv_setPending ((Nat.le_add_right _ _).trans hready.cursor)).after_respond _
  | displayed hc hfull =>
    have hready : s.Ready := ⟨hinv, hc⟩
    exact (hready.inv_clearCursor (by simpa using hc) (reservedBit_setDispSel _ _)).after_respond _
  | notDisplayed hc hfull =>
    have hready : s.Ready := ⟨hinv, hc⟩
    exact (hready.inv_clearCursor hc rfl).after_respond _

/-! ### No command stops the machine -/

/-- The outcome is a next state, no stop of the machine. -/
def Result.Continues (r : Result) : Prop := ∃ t, r = .next t

theorem continues_done (d : Word) (s : State) : Result.Continues (done d s) := ⟨_, rfl⟩

theorem continues_trap (c : FaultCode) (s : State) : Result.Continues (trap c s) := ⟨_, rfl⟩

theorem continues_ite {p : Prop} [Decidable p] {a b : Result} (ha : p → a.Continues) (hb : ¬ p → b.Continues) :
    Result.Continues (if p then a else b) := by
  split
  · exact ha ‹_›
  · exact hb ‹_›

/-- The prelude faults NOCFG or hands a ready state to the body. -/
theorem continues_whenConfigured {s : State} {body : Result} (hinv : s.Inv) (hbody : s.Ready → body.Continues) :
    (whenConfigured s body).Continues :=
  continues_ite (fun hc => hbody ⟨hinv, hc⟩) fun _ => continues_trap _ s

theorem continues_whenInRange {x y z : BitVec 3} {s : State} {body : Result} (hbody : s.InCube x y z → body.Continues) :
    (whenInRange x y z s body).Continues :=
  continues_ite (fun hr => hbody ((inRange_iff _ _ _ _).1 hr)) fun _ => continues_trap _ s

/-- A channel of the geometry that is looked up inside the cube is read from an index that exists (20_memory.md R36). -/
theorem State.Ready.continues_extract {s : State} (h : s.Ready) {b : BankId} {x y z : BitVec 3} {c : Nat}
    (hch : c < s.channelCount) {value : Nat → Word} :
    (whenInRange x y z s (extractChannel b x y z c s fun raw => done (value raw) s)).Continues := by
  refine continues_whenInRange fun hcube => ?_
  rw [extractChannel_of_lt (chByte_lt h.legal hcube hch).2]
  exact continues_done _ s

/-- In a state that meets the invariant every command reaches a next state (60_exceptions.md R95). -/
theorem exec_continues (i : Instr) {s : State} (hinv : s.Inv) : Result.Continues (exec i s) := by
  cases i with
  | nop => exact continues_done _ s
  | config side count size =>
    exact continues_ite (fun _ => continues_trap _ s) fun _ =>
      continues_ite (fun _ => continues_done _ _) fun _ => continues_trap _ s
  | rdreg reg =>
    exact continues_ite (fun _ => continues_done _ s) fun _ => continues_ite (fun _ => continues_done _ s) fun _ =>
      continues_ite (fun _ => continues_done _ s) fun _ => continues_trap _ s
  | rdch sel x y z ch =>
    refine continues_whenConfigured hinv fun hready => continues_ite (fun _ => continues_done _ s) fun hch => ?_
    exact hready.continues_extract (Nat.lt_of_not_le hch)
  | gcb x y z ch =>
    refine continues_whenConfigured hinv fun hready => continues_ite (fun _ => continues_done _ s) fun hch => ?_
    exact hready.continues_extract (Nat.lt_of_not_le hch)
  | gcs x y z ch =>
    refine continues_whenConfigured hinv fun hready => continues_ite (fun _ => continues_done _ s) fun hch =>
      continues_ite (fun _ => continues_done _ s) fun _ => ?_
    exact hready.continues_extract (Nat.lt_of_not_le hch)
  | gvb x y z =>
    refine continues_whenConfigured hinv fun hready => continues_ite (fun _ => continues_done _ s) fun hone => ?_
    exact hready.continues_extract (by omega)
  | gvs x y z =>
    refine continues_whenConfigured hinv fun hready => continues_ite (fun _ => continues_done _ s) fun hone =>
      continues_ite (fun _ => continues_done _ s) fun _ => ?_
    exact hready.continues_extract (by omega)
  | wrch x y z ch value =>
    refine continues_whenConfigured hinv fun hready => continues_ite (fun _ => continues_done _ s) fun hch =>
      continues_whenInRange fun hcube => continues_ite (fun _ => continues_trap _ s) fun _ => ?_
    have hbank := (chByte_lt hready.legal hcube (Nat.lt_of_not_le hch)).2
    rw [bankRead_of_lt hbank, bankWrite_of_lt hbank]
    exact continues_done _ _
  | rdb sel idx =>
    refine continues_whenConfigured hinv fun hready => continues_ite (fun _ => continues_trap _ s) fun hidx => ?_
    rw [bankRead_of_lt ((Nat.lt_of_not_le hidx).trans_le hready.size.2)]
    exact continues_done _ s
  | appb byte =>
    refine continues_whenConfigured hinv fun hready => continues_ite (fun hroom => ?_) fun _ => continues_done _ s
    rw [bankWrite_of_lt (hroom.trans_le hready.size.2)]
    exact continues_done _ _
  | appr byte run =>
    refine continues_whenConfigured hinv fun hready => ?_
    rw [bankWriteRun_of_le (.inr (hready.run_le run).2)]
    exact continues_done _ _
  | commit =>
    exact continues_whenConfigured hinv fun _ => continues_ite (fun _ => continues_done _ _) fun _ => continues_done _ _
  | discard => exact continues_whenConfigured hinv fun _ => continues_done _ _
  | display =>
    exact continues_whenConfigured hinv fun _ => continues_ite (fun _ => continues_done _ _) fun _ => continues_done _ _

/-! ### One command, one word, and every run -/

/-- A command executed in a state that meets the invariant is answered once and keeps the invariant. -/
theorem exec_completes (i : Instr) {s : State} (hinv : s.Inv) :
    Completes i s fun t => t.Inv ∧ ∃ r, t.responses = s.responses ++ [r] := by
  obtain ⟨t, ht⟩ := exec_continues i hinv
  have heffect := exec_effect ht
  exact ⟨t, ht, heffect.keepsInv hinv, heffect.answersOnce⟩

/-- A word executed in a state that meets the invariant is answered once, and the invariant holds of the next state. -/
theorem executeWord_completes (w : Word) {s : State} (hinv : s.Inv) :
    ∃ t, executeWord w s = .next t ∧ t.Inv ∧ ∃ r, t.responses = s.responses ++ [r] := by
  unfold executeWord
  cases decode w with
  | error why => exact ⟨_, rfl, hinv.after_raiseFault _, _, rfl⟩
  | ok i => exact exec_completes i hinv

theorem runWords_cons {w : Word} {ws : List Word} {s t : State} (h : executeWord w s = .next t) :
    runWords (w :: ws) s = runWords ws t := by
  simp only [runWords, h]

/-- Settles O25, by induction over the words of the run: each of them is answered once and keeps the invariant. -/
theorem everyRunCompletes : Obligations.EveryRunCompletes := by
  intro ws
  induction ws with
  | nil => exact fun s hinv => ⟨s, [], rfl, hinv, (List.append_nil _).symm, rfl⟩
  | cons w ws ih =>
    intro s hinv
    obtain ⟨t, hword, ht, r, hr⟩ := executeWord_completes w hinv
    obtain ⟨u, rs, hrun, hu, hrs, hlength⟩ := ih t ht
    refine ⟨u, r :: rs, (runWords_cons hword).trans hrun, hu, ?_, congrArg (· + 1) hlength⟩
    rw [hrs, hr, List.append_assoc, List.singleton_append]

end Sys2Proof.Machine
end

section
/-! The invariant along every step, and the state after reset (10_state.md R17, R25, R26, R32): the state that reset leaves
meets the invariant, and a step is idle, executes a word, or resets. -/

namespace Sys2Proof.Machine

/-! ### The state after reset -/

/-- With both registers 0 and no cell written the invariant holds, whatever the ports hold (10_state.md R32). -/
theorem inv_of_cleared {s : State} (hgeom : s.geom = 0) (hstatus : s.status = 0) (hbank0 : s.bank0 = [])
    (hbank1 : s.bank1 = []) : s.Inv := by
  refine ⟨⟨fun _ => ?_, fun hc => ?_⟩, ⟨?_, ?_⟩, ?_, ?_⟩
  · simp [hgeom, hstatus]
  · simp [hstatus] at hc
  · simp [hstatus]
  · simp [hgeom]
  · rw [hbank0]; exact wf_nil
  · rw [hbank1]; exact wf_nil

/-- A bank without written cells reads as the reset draw everywhere. -/
theorem byteAt_of_cells_nil {s : State} {b : BankId} (h : s.cells b = []) (i : Nat) :
    s.byteAt b i = s.unwritten b i := by
  rw [State.byteAt, h, lookup_nil, Option.getD_none]

theorem cells_reset (b : BankId) : State.reset.cells b = [] := by cases b <;> rfl

/-! ### One step -/

theorem step_idle {s : State} (h : s.port = []) : step s = .next s := by
  simp only [step, acceptEvent, h]

theorem step_event {s : State} {e : PortEvent} {rest : List PortEvent} (h : s.port = e :: rest) :
    step s = takeEvent e { s with port := rest } := by
  simp only [step, acceptEvent, h]

/-- The invariant says nothing of the port. -/
theorem State.Inv.with_port {s : State} (h : s.Inv) (rest : List PortEvent) : ({ s with port := rest } : State).Inv := h

theorem executeWord_keepsInv {w : Word} {s t : State} (hinv : s.Inv) (h : executeWord w s = .next t) : t.Inv := by
  obtain ⟨u, hu, huinv, -⟩ := executeWord_completes w hinv
  cases hu.symm.trans h
  exact huinv

theorem takeEvent_keepsInv {e : PortEvent} {s t : State} (hinv : s.Inv) (h : takeEvent e s = .next t) : t.Inv := by
  cases e with
  | command w => exact executeWord_keepsInv hinv h
  | reset =>
    cases h
    exact inv_of_cleared rfl rfl rfl rfl

/-- Settles O27, by the three things a step can be: idle, a command word, or a reset. -/
theorem everyStepKeepsInvariant : Obligations.EveryStepKeepsInvariant := by
  intro s t hinv hstep
  cases hport : s.port with
  | nil =>
    cases (step_idle hport).symm.trans hstep
    exact hinv
  | cons e rest =>
    rw [step_event hport] at hstep
    exact takeEvent_keepsInv (hinv.with_port rest) hstep

/-- Settles O26: both registers are 0, no cell is listed, and STRIDE + PENDING = 0. -/
theorem resetMeetsInvariant : Obligations.ResetMeetsInvariant := by
  refine ⟨inv_of_cleared rfl rfl rfl rfl, fun i hi => ?_⟩
  have hzero : State.reset.appendIndex = 0 := by decide
  omega

/-- Settles O21: the registers by evaluation, the bank bytes because no cell is listed. -/
theorem resetRegistersZero : Obligations.ResetRegistersZero :=
  ⟨rfl, rfl, by decide, by decide, by decide, by decide, fun b i => byteAt_of_cells_nil (cells_reset b) i⟩

/-! ### bufferSize -/

theorem bufferSizeOf_zero : bufferSizeOf 0 = 0 := by decide

/-- Settles O46, by the range of the frame of a legal geometry; before CONFIG the invariant has GEOM = 0. -/
theorem bufferSizeRange : Obligations.BufferSizeRange := by
  refine ⟨fun s hready => ⟨hready.size.1, hready.size.2, bufferSizeOf_eq s.geom⟩, fun s hinv hc => ?_⟩
  obtain ⟨⟨hunconfigured, -⟩, -, -⟩ := hinv
  obtain ⟨-, -, -, hgeom⟩ := hunconfigured hc
  rw [State.bufferSize, hgeom, bufferSizeOf_zero]

end Sys2Proof.Machine
end

section
/-! Who writes what (10_state.md R16, R20-R28): for each register and for the banks one inversion says what every effect of
a command can do to it, and the statements follow from these. -/

namespace Sys2Proof.Machine

/-! ### Words -/

/-- A word that answers a next state has the effect of some command: an illegal word that of a command that faults. -/
theorem executeWord_effect {w : Word} {s t : State} (h : executeWord w s = .next t) : ∃ i, Effect s i t := by
  unfold executeWord at h
  split at h
  · exact ⟨_, exec_effect h⟩
  · cases h
    exact ⟨.nop, .faulted _ _⟩

/-! ### The sticky bits and the reserved bits -/

theorem getLsbD_setPending_of_le (w : Word) (n : Nat) {j : Nat} (h : 22 ≤ j) :
    (setPending w n).getLsbD j = w.getLsbD j := by
  rw [getLsbD_setPending, if_neg (by omega)]

theorem getLsbD_setStride_of_le (w : Word) (n : Nat) {j : Nat} (h : 11 ≤ j) :
    (setStride w n).getLsbD j = w.getLsbD j := by
  rw [getLsbD_setStride, if_neg (by omega)]

/-- A command faults, or it responds and leaves STATE[31:24]. -/
theorem Effect.faulted_or_responds {s t : State} {i : Instr} (h : Effect s i t) :
    (∃ c, t = raiseFault c s) ∨
      (∃ d, Responds s t d) ∧ ∀ j, 24 ≤ j → t.status.getLsbD j = s.status.getLsbD j := by
  cases h with
  | faulted c => exact .inl ⟨_, rfl⟩
  | responded d => exact .inr ⟨⟨_, rfl⟩, fun j _ => rfl⟩
  | configured side count size =>
    refine .inr ⟨⟨_, rfl⟩, fun j hj => ?_⟩
    rw [respond_status, getLsbD_setCfgValid, if_neg (by omega)]
  | packed x y z ch value =>
    refine .inr ⟨⟨0, by rw [Responds, respond_responses, storeByte_responses]⟩, fun j _ => ?_⟩
    rw [respond_status, storeByte_status]
  | appended byte =>
    refine .inr ⟨⟨1, by rw [Responds, respond_responses, withStatus_responses, storeByte_responses]⟩, fun j hj => ?_⟩
    exact getLsbD_setPending_of_le _ _ (by omega)
  | ran byte run =>
    refine .inr ⟨⟨dataWord (s.runLength run), ?_⟩, fun j hj => ?_⟩
    · rw [Responds, respond_responses, withStatus_responses, storeBytes_responses]
    · exact getLsbD_setPending_of_le _ _ (by omega)
  | committed =>
    refine .inr ⟨⟨_, rfl⟩, fun j hj => ?_⟩
    exact (getLsbD_setPending_of_le _ _ (by omega)).trans (getLsbD_setStride_of_le _ _ (by omega))
  | notCommitted | discarded =>
    exact .inr ⟨⟨_, rfl⟩, fun j hj => getLsbD_setPending_of_le _ _ (by omega)⟩
  | displayed =>
    refine .inr ⟨⟨_, rfl⟩, fun j hj => ?_⟩
    rw [respond_status, withStatus_status, getLsbD_clearCursor _ _ (by omega), getLsbD_setDispSel, if_neg (by omega)]
  | notDisplayed =>
    exact .inr ⟨⟨_, rfl⟩, fun j hj => getLsbD_clearCursor _ _ (by omega)⟩

/-- A fault sets the sticky bit of its own code and no other. -/
theorem stickyBit_raiseFault (c : FaultCode) (s : State) (k : Nat) :
    (raiseFault c s).status.getLsbD (24 + k) = (s.status.getLsbD (24 + k) || decide (k = c.number)) := by
  rw [(raiseFault_faults c s).sticky]
  simp only [Nat.add_left_cancel_iff]

theorem FaultCode.code_toNat (c : FaultCode) : c.code.toNat = c.number := by cases c <;> rfl

/-- A command that answers once answers one response only. -/
theorem response_unique {rs us : List Response} {q r : Response} (h1 : us = rs ++ [q]) (h2 : us = rs ++ [r]) : r = q :=
  List.singleton_inj.1 (List.append_cancel_left (h2.symm.trans h1))

/-- Settles O31: a fault sets the bit of its own code and no other, a command that responds leaves STATE[31:24], and a
reset clears STATE. -/
theorem faultBitsAreSticky : Obligations.FaultBitsAreSticky := by
  refine ⟨fun w s t k hk1 hk7 hword => ?_, fun s rest hport => ⟨_, step_event hport, fun k _ _ => ?_⟩⟩
  · obtain ⟨i, heffect⟩ := executeWord_effect hword
    rcases heffect.faulted_or_responds with ⟨c, rfl⟩ | ⟨⟨d, hd⟩, hbits⟩
    · have hsticky := stickyBit_raiseFault c s k
      refine ⟨fun hset => by rw [hsticky, hset, Bool.true_or], fun r hr => ?_⟩
      cases response_unique (raiseFault_responses c s) hr
      refine ⟨fun hno => absurd hno (by decide : ¬ true = false), fun _ hcode => ?_, fun hclear hset => ⟨rfl, ?_⟩⟩
      · have hk : k = c.number := hcode.symm.trans c.code_toNat
        rw [hsticky, decide_eq_true hk, Bool.or_true]
      · rw [hsticky, hclear, Bool.false_or, decide_eq_true_eq] at hset
        exact c.code_toNat.trans hset.symm
    · have hsame := hbits (24 + k) (by omega)
      refine ⟨hsame.trans, fun r hr => ?_⟩
      cases response_unique hd hr
      refine ⟨fun _ => hsame, fun hfault => absurd hfault (by decide : ¬ false = true), fun hclear hset => ?_⟩
      rw [hsame, hclear] at hset
      cases hset
  · simp

/-! ### GEOM and CFG_VALID -/

/-- A command leaves GEOM and CFG_VALID, or it is a CONFIG that takes effect before the block is configured. -/
theorem Effect.geometry_cases {s t : State} {i : Instr} (h : Effect s i t) :
    (t.geom = s.geom ∧ cfgValidOf t.status = cfgValidOf s.status) ∨
      ∃ side count size, i = .config side count size ∧ cfgValidOf s.status = false ∧ Responds s t 0 ∧
        t.geom = setGeometry s.geom side count size := by
  cases h with
  | configured side count size hc hlegal => exact .inr ⟨side, count, size, rfl, hc, rfl, rfl⟩
  | responded | faulted | packed | appended | ran | committed | notCommitted | discarded | displayed | notDisplayed =>
    exact .inl (by simp)

theorem exec_config_reconfig {side count size : BitVec 8} {s : State} (hc : cfgValidOf s.status = true) :
    exec (.config side count size) s = trap .reconfig s := if_pos hc

/-- Settles O33, by the inversion of GEOM and CFG_VALID. -/
theorem geometryFixedUntilReset : Obligations.GeometryFixedUntilReset := by
  intro i s t hexec
  refine ⟨fun hc => ?_, fun hchanged => ?_, fun hc side count size hi => ?_⟩
  · rcases (exec_effect hexec).geometry_cases with ⟨hgeom, hvalid⟩ | ⟨_, _, _, _, hoff, _⟩
    · exact ⟨hgeom, hvalid.trans hc⟩
    · cases hc.symm.trans hoff
  · rcases (exec_effect hexec).geometry_cases with ⟨hgeom, hvalid⟩ | ⟨side, count, size, hi, hoff, hresponds, -⟩
    · exact (hchanged.elim (· hgeom) (· hvalid)).elim
    · exact ⟨hoff, hresponds, side, count, size, hi⟩
  · subst hi
    cases (exec_config_reconfig hc).symm.trans hexec
    exact raiseFault_faults .reconfig s

theorem Effect.reservedBit {s t : State} {i : Instr} (h : Effect s i t) :
    t.status.getLsbD 24 = s.status.getLsbD 24 := by
  rcases h.faulted_or_responds with ⟨c, rfl⟩ | ⟨-, hbits⟩
  · exact reservedBit_setSticky s.status c
  · exact hbits 24 (by omega)

theorem reservedGeom_setGeometry (g : Word) (side count size : BitVec 8) :
    (setGeometry g side count size).extractLsb' 24 8 = g.extractLsb' 24 8 := by
  refine BitVec.eq_of_getLsbD_eq fun j _ => ?_
  rw [BitVec.getLsbD_extractLsb', BitVec.getLsbD_extractLsb', getLsbD_setGeometry _ _ _ _ _ (by omega)]

theorem Effect.reservedGeom {s t : State} {i : Instr} (h : Effect s i t) :
    t.geom.extractLsb' 24 8 = s.geom.extractLsb' 24 8 := by
  rcases h.geometry_cases with ⟨hgeom, -⟩ | ⟨side, count, size, -, -, -, hgeom⟩
  · rw [hgeom]
  · rw [hgeom, reservedGeom_setGeometry]

/-- Settles O32: no effect writes the reserved bits, and the invariant has them 0. -/
theorem reservedBitsNeverWritten : Obligations.ReservedBitsNeverWritten := by
  intro w s t hword
  obtain ⟨i, heffect⟩ := executeWord_effect hword
  refine ⟨heffect.reservedBit, heffect.reservedGeom, fun hinv => ?_⟩
  obtain ⟨-, hreserved, -⟩ := executeWord_keepsInv hinv hword
  exact hreserved

/-! ### DISP_SEL -/

/-- A command leaves DISP_SEL, or it is a DISPLAY of a full frame, which keeps every bank byte. -/
theorem Effect.dispSel_cases {s t : State} {i : Instr} (h : Effect s i t) :
    dispSelOf t.status = dispSelOf s.status ∨
      i = .display ∧ cfgValidOf s.status = true ∧ s.stride = s.bufferSize ∧ SameBanks s t := by
  cases h with
  | displayed hc hfull => exact .inr ⟨rfl, hc, hfull, fun b j => by rw [byteAt_respond, byteAt_withStatus]⟩
  | responded | faulted | configured | packed | appended | ran | committed | notCommitted | discarded | notDisplayed =>
    exact .inl (by simp)

/-- A DISPLAY of a full frame inverts DISP_SEL (44_swap.md R90). -/
theorem dispSel_of_full_display {s t : State} (hc : cfgValidOf s.status = true) (hfull : s.stride = s.bufferSize)
    (h : exec .display s = .next t) : dispSelOf t.status = !dispSelOf s.status := by
  cases (exec_display_swaps hc hfull).symm.trans h
  simp

/-- Settles O34, by the inversion of DISP_SEL. -/
theorem onlyFullDisplayInvertsSelect : Obligations.OnlyFullDisplayInvertsSelect := by
  refine ⟨fun s => ⟨displayBank_eq s, (writeBank_eq s).symm⟩, fun i s t hexec => ⟨⟨fun hne => ?_, ?_⟩, fun hne => ?_⟩⟩
  · obtain hsame | ⟨hi, hc, hfull, -⟩ := (exec_effect hexec).dispSel_cases
    · exact absurd hsame hne
    · exact ⟨hi, hc, hfull.trans (bufferSizeOf_eq s.geom)⟩
  · rintro ⟨rfl, hc, hfull⟩ hsame
    have hinverted := dispSel_of_full_display hc (hfull.trans (bufferSizeOf_eq s.geom).symm) hexec
    exact Bool.not_ne_self _ (hinverted.symm.trans hsame)
  · obtain hsame | ⟨-, -, -, hbanks⟩ := (exec_effect hexec).dispSel_cases
    · exact absurd hsame hne
    · exact hbanks

/-! ### STRIDE and PENDING -/

/-- The commands that append to the write bank (43_assembly.md R84, R85). -/
def IsAppend (i : Instr) : Prop := (∃ b, i = .appb b) ∨ ∃ b n, i = .appr b n

theorem Effect.keepsStride {s t : State} {i : Instr} (h : Effect s i t) (hcommit : i ≠ .commit)
    (hdisplay : i ≠ .display) : t.stride = s.stride := by
  cases h with
  | committed | notCommitted => exact absurd rfl hcommit
  | displayed | notDisplayed => exact absurd rfl hdisplay
  | responded | faulted | configured | packed | appended | ran | discarded => simp

/-- A PENDING that keeps the cursor inside the frame fits its field. -/
theorem State.Ready.pending_fits {s : State} (h : s.Ready) {n : Nat} (hfit : s.stride + n ≤ s.bufferSize) :
    pendingOf (setPending s.status n) = n := by
  have hsize : s.bufferSize ≤ 1536 := h.size.2
  rw [pendingOf_setPending, Nat.mod_eq_of_lt (by omega)]

/-- A command that does not clear PENDING leaves it, or appends and does not lessen it. -/
theorem Effect.pending_cases {s t : State} {i : Instr} (h : Effect s i t) (hready : s.Ready) (hcommit : i ≠ .commit)
    (hdiscard : i ≠ .discard) (hdisplay : i ≠ .display) :
    t.pending = s.pending ∨ IsAppend i ∧ s.pending ≤ t.pending := by
  cases h with
  | committed | notCommitted => exact absurd rfl hcommit
  | discarded => exact absurd rfl hdiscard
  | displayed | notDisplayed => exact absurd rfl hdisplay
  | responded | faulted | configured | packed => exact .inl (by simp)
  | appended byte hc hroom =>
    have hnew := hready.pending_fits (n := s.pending + 1) hroom
    exact .inr ⟨.inl ⟨byte, rfl⟩, by simp [hnew]⟩
  | ran byte run hc =>
    have hrun := (hready.run_le run).1
    have hnew := hready.pending_fits (n := s.pending + s.runLength run) ((Nat.add_assoc _ _ _).ge.trans hrun)
    exact .inr ⟨.inr ⟨byte, run, rfl⟩, by simp [hnew]⟩

theorem State.Ready.commit_cursor {s t : State} (h : s.Ready) (hexec : exec .commit s = .next t) :
    t.stride = s.appendIndex ∧ t.pending = 0 := by
  cases (exec_commit_fits h.2 h.cursor).symm.trans hexec
  have hsize : s.bufferSize ≤ 1536 := h.size.2
  have hfit : s.appendIndex ≤ s.bufferSize := h.cursor
  have hmod : s.appendIndex % 2048 = s.appendIndex := Nat.mod_eq_of_lt (by omega)
  exact ⟨by simpa using hmod, by simp⟩

theorem State.Ready.discard_pending {s t : State} (h : s.Ready) (hexec : exec .discard s = .next t) :
    t.pending = 0 := by
  cases (exec_discard_drops h.2).symm.trans hexec
  simp

theorem State.Ready.display_cursor {s t : State} (h : s.Ready) (hexec : exec .display s = .next t) :
    t.stride = 0 ∧ t.pending = 0 := by
  by_cases hfull : s.stride = s.bufferSize
  · cases (exec_display_swaps h.2 hfull).symm.trans hexec
    simp
  · cases (exec_display_fails h.2 hfull).symm.trans hexec
    simp

/-- A fault leaves the cursor: its sticky bit lies above the fields STRIDE and PENDING. -/
theorem Faults.keepsCursor {s t : State} {k : Nat} (h : Faults s t k) : t.stride = s.stride ∧ t.pending = s.pending := by
  have hfield : ∀ lo, lo ≤ 11 → t.status.extractLsb' lo 11 = s.status.extractLsb' lo 11 := by
    intro lo hlo
    refine BitVec.eq_of_getLsbD_eq fun j hj => ?_
    have hbit : ¬ lo + j = 24 + k := by omega
    rw [BitVec.getLsbD_extractLsb', BitVec.getLsbD_extractLsb', h.sticky, decide_eq_false hbit, Bool.or_false]
  exact ⟨congrArg BitVec.toNat (hfield 0 (by omega)), congrArg BitVec.toNat (hfield 11 (by omega))⟩

/-- A ready state stays ready under every command. -/
theorem State.Ready.after_exec {s t : State} {i : Instr} (h : s.Ready) (hexec : exec i s = .next t) : t.Ready := by
  refine ⟨(exec_effect hexec).keepsInv h.1, ?_⟩
  rcases (exec_effect hexec).geometry_cases with ⟨-, hvalid⟩ | ⟨_, _, _, _, hoff, _⟩
  · exact hvalid.trans h.2
  · cases h.2.symm.trans hoff

/-- Settles O35: the commands that clear by their equations, every other command by the inversions of STRIDE and PENDING. -/
theorem cursorWriters : Obligations.CursorWriters := by
  intro i s t hready hexec
  have heffect := exec_effect hexec
  refine ⟨?_, ?_, heffect.keepsStride, ?_, fun h1 h2 h3 => ?_, fun hne => ?_, fun k => Faults.keepsCursor, ?_⟩
  · rintro rfl; exact (hready.commit_cursor hexec).1
  · rintro rfl; exact (hready.display_cursor hexec).1
  · rintro (rfl | rfl | rfl)
    · exact (hready.commit_cursor hexec).2
    · exact hready.discard_pending hexec
    · exact (hready.display_cursor hexec).2
  · exact (heffect.pending_cases hready h1 h2 h3).elim (fun hsame => hsame.ge) (·.2)
  · by_contra hother
    rw [not_or, not_or, not_or] at hother
    obtain ⟨h1, h2, h3, happend⟩ := hother
    exact (heffect.pending_cases hready h1 h2 h3).elim hne fun h => happend h.1
  · exact (hready.after_exec hexec).cursor.trans_eq (bufferSizeOf_eq t.geom)

/-! ### Bank bytes -/

theorem SameBanksBut.of_ne {b c : BankId} {p n j : Nat} {s t : State} (h : SameBanksBut b p n s t)
    (hne : t.byteAt c j ≠ s.byteAt c j) : c = b ∧ p ≤ j ∧ j < p + n :=
  not_not.1 fun hout => hne (h c j hout)

/-- Where a command may write in the write bank: WRCH at its own byte, an append from STRIDE + PENDING on. -/
def WritesAt (i : Instr) (s : State) (j : Nat) : Prop :=
  (∃ x y z ch v, i = .wrch x y z ch v ∧ j = s.specByte x y z ch.toNat) ∨ IsAppend i ∧ s.stride + s.pending ≤ j

/-- A byte that a command changes is a write-bank byte inside the frame, where the command may write. -/
theorem Effect.changed_byte {s t : State} {i : Instr} (h : Effect s i t) (hinv : s.Inv) {b : BankId} {j : Nat}
    (hne : t.byteAt b j ≠ s.byteAt b j) : b = s.writeBank ∧ j < s.bufferSize ∧ WritesAt i s j := by
  cases h with
  | responded | faulted | committed | notCommitted | discarded | displayed | notDisplayed => simp at hne
  | configured => exact absurd (byteAt_congr (by cases b <;> rfl) rfl j) hne
  | packed x y z ch value hc hch hcube =>
    rw [byteAt_respond] at hne
    obtain ⟨hb, hlo, hhi⟩ := (sameBanksBut_storeByte s _ _ _).of_ne hne
    have hj : j = s.chByte x y z ch.toNat := by omega
    have hframe := (chByte_lt (State.Ready.legal ⟨hinv, hc⟩) hcube hch).1
    exact ⟨hb, hj ▸ hframe, .inl ⟨x, y, z, ch, value, rfl, hj.trans (chByte_eq s x y z ch.toNat)⟩⟩
  | appended byte hc hroom =>
    rw [byteAt_respond, byteAt_withStatus] at hne
    obtain ⟨hb, hlo, hhi⟩ := (sameBanksBut_storeByte s _ _ _).of_ne hne
    exact ⟨hb, by omega, .inr ⟨.inl ⟨byte, rfl⟩, hlo⟩⟩
  | ran byte run hc =>
    rw [byteAt_respond, byteAt_withStatus] at hne
    obtain ⟨hb, hlo, hhi⟩ := (sameBanksBut_storeBytes s _ _ _ _).of_ne hne
    have hrun := (State.Ready.run_le ⟨hinv, hc⟩ run).1
    exact ⟨hb, hhi.trans_le hrun, .inr ⟨.inr ⟨byte, run, rfl⟩, hlo⟩⟩

/-- Settles O36: every byte that changes is a write-bank byte, and the display bank is the other bank. -/
theorem whichBytesCommandsWrite : Obligations.WhichBytesCommandsWrite := by
  intro i s t hinv hexec
  refine ⟨fun j => ?_, fun j hne => ?_⟩
  · by_contra hne
    obtain ⟨hbank, -⟩ := (exec_effect hexec).changed_byte hinv hne
    exact displayBank_ne_writeBank s hbank
  · obtain ⟨-, hframe, hwrites⟩ := (exec_effect hexec).changed_byte hinv hne
    exact ⟨hframe.trans_eq (bufferSizeOf_eq s.geom), hwrites⟩

end Sys2Proof.Machine
end

section
/-! The memory map and the double buffer (20_memory.md R36-R44): a step takes the oldest port event, no command touches the
parameter or the port, a channel lies inside one byte of the frame, WRCH keeps the bits past the last channel, and a query of
the display bank reads the published frame alone. -/

namespace Sys2Proof.Machine

/-! ### What two states must share for a query of the display bank -/

/-- Two states that agree on all that a query of the display bank may look at (20_memory.md R39). -/
structure SamePublished (s s' : State) : Prop where
  geom : s'.geom = s.geom
  bitOrder : s'.bitOrder = s.bitOrder
  cfgValid : cfgValidOf s'.status = cfgValidOf s.status
  frame : ∀ j < s.bufferSize, s'.byteAt s'.displayBank j = s.byteAt s.displayBank j

/-- Two outcomes, one from each state, that complete and deliver the same one response. -/
def AnswerAlike (s s' : State) (a a' : Result) : Prop :=
  ∃ t t' r, a = .next t ∧ a' = .next t' ∧ t.responses = s.responses ++ [r] ∧ t'.responses = s'.responses ++ [r]

theorem alike_done (s s' : State) (d : Word) : AnswerAlike s s' (done d s) (done d s') :=
  ⟨_, _, _, rfl, rfl, rfl, rfl⟩

theorem alike_trap (s s' : State) (c : FaultCode) : AnswerAlike s s' (trap c s) (trap c s') :=
  ⟨_, _, _, rfl, rfl, rfl, rfl⟩

/-- A check that comes out alike in both states leaves the branch it takes to be compared. -/
theorem alike_ite {s s' : State} {p p' : Prop} [Decidable p] [Decidable p'] {a a' b b' : Result} (hp : p' ↔ p)
    (ha : p → AnswerAlike s s' a a') (hb : ¬ p → AnswerAlike s s' b b') :
    AnswerAlike s s' (if p then a else b) (if p' then a' else b') := by
  by_cases h : p
  · rw [if_pos h, if_pos (hp.2 h)]
    exact ha h
  · rw [if_neg h, if_neg (mt hp.1 h)]
    exact hb h

namespace SamePublished

variable {s s' : State} (h : SamePublished s s')
include h

theorem channelCount : s'.channelCount = s.channelCount := congrArg channelCountOf h.geom

theorem channelSize : s'.channelSize = s.channelSize := congrArg channelSizeOf h.geom

theorem bufferSize : s'.bufferSize = s.bufferSize := congrArg bufferSizeOf h.geom

theorem chByte (x y z : BitVec 3) (c : Nat) : s'.chByte x y z c = s.chByte x y z c := by
  rw [State.chByte, State.chByte, h.geom]

theorem chShift (x y z : BitVec 3) (c : Nat) : s'.chShift x y z c = s.chShift x y z c := by
  rw [State.chShift, State.chShift, h.geom, h.bitOrder]

/-- A channel of the published frame has the same raw value in both states. -/
theorem rawAt {x y z : BitVec 3} {c : Nat} (hbyte : s.chByte x y z c < s.bufferSize) :
    s'.rawAt s'.displayBank x y z c = s.rawAt s.displayBank x y z c := by
  rw [State.rawAt, State.rawAt, h.chByte, h.chShift, h.channelSize, h.frame _ hbyte]

theorem alike_whenConfigured {a a' : Result} (hinv : s.Inv) (hbody : s.Ready → AnswerAlike s s' a a') :
    AnswerAlike s s' (whenConfigured s a) (whenConfigured s' a') :=
  alike_ite (by rw [h.cfgValid]) (fun hc => hbody ⟨hinv, hc⟩) fun _ => alike_trap s s' .nocfg

theorem alike_whenInRange {x y z : BitVec 3} {a a' : Result} (hbody : s.InCube x y z → AnswerAlike s s' a a') :
    AnswerAlike s s' (whenInRange x y z s a) (whenInRange x y z s' a') :=
  alike_ite (by rw [h.geom]) (fun hr => hbody ((inRange_iff _ _ _ _).1 hr)) fun _ => alike_trap s s' .coord

/-- A byte of the published frame is read alike. -/
theorem alike_readByte (hready : s.Ready) {j : Nat} (hj : j < s.bufferSize) (value : Byte → Word) :
    AnswerAlike s s' (bankRead s.displayBank j s fun byte => done (value byte) s)
      (bankRead s'.displayBank j s' fun byte => done (value byte) s') := by
  have hbank := hj.trans_le hready.size.2
  rw [bankRead_of_lt hbank, bankRead_of_lt hbank, h.frame j hj]
  exact alike_done s s' _

/-- A channel of the published frame is read alike; `value` makes DATA of channelSize and the raw value. -/
theorem alike_readChannel (hready : s.Ready) {x y z : BitVec 3} {c : Nat} (hch : c < s.channelCount)
    (value : Nat → Nat → Word) :
    AnswerAlike s s'
      (whenInRange x y z s (extractChannel s.displayBank x y z c s fun raw => done (value s.channelSize raw) s))
      (whenInRange x y z s' (extractChannel s'.displayBank x y z c s' fun raw => done (value s'.channelSize raw) s')) := by
  refine h.alike_whenInRange fun hcube => ?_
  obtain ⟨hframe, hbank⟩ := chByte_lt hready.legal hcube hch
  rw [extractChannel_of_lt hbank, extractChannel_of_lt ((h.chByte x y z c).trans_lt hbank), h.rawAt hframe, h.channelSize]
  exact alike_done s s' _

/-- The checks of a query come out alike in both states, and so does the byte it reads (41_decode.md R74-R79). -/
theorem exec_alike {i : Instr} (hreads : readsDisplay i = true) (hinv : s.Inv) :
    AnswerAlike s s' (exec i s) (exec i s') := by
  cases i with
  | nop | config | rdreg | wrch | appb | appr | commit | discard | display => cases hreads
  | rdch sel x y z ch =>
    cases sel with
    | write => cases hreads
    | display =>
      refine h.alike_whenConfigured hinv fun hready => alike_ite (by rw [h.channelCount])
        (fun _ => alike_done s s' 0) fun hch => ?_
      exact h.alike_readChannel hready (Nat.lt_of_not_le hch) fun _ raw => dataWord raw
  | gcb x y z ch =>
    refine h.alike_whenConfigured hinv fun hready => alike_ite (by rw [h.channelCount])
      (fun _ => alike_done s s' 0) fun hch => ?_
    exact h.alike_readChannel hready (Nat.lt_of_not_le hch) fun size raw => dataWord (toBrightness size raw)
  | gcs x y z ch =>
    refine h.alike_whenConfigured hinv fun hready => alike_ite (by rw [h.channelCount])
      (fun _ => alike_done s s' 0) fun hch => alike_ite (by rw [h.channelSize]) (fun _ => alike_done s s' 0) fun _ => ?_
    exact h.alike_readChannel hready (Nat.lt_of_not_le hch) fun size raw => dataWord (toState size raw)
  | gvb x y z =>
    refine h.alike_whenConfigured hinv fun hready => alike_ite (by rw [h.channelCount])
      (fun _ => alike_done s s' 0) fun hone => ?_
    exact h.alike_readChannel hready (by omega) fun size raw => dataWord (toBrightness size raw)
  | gvs x y z =>
    refine h.alike_whenConfigured hinv fun hready => alike_ite (by rw [h.channelCount])
      (fun _ => alike_done s s' 0) fun hone => alike_ite (by rw [h.channelSize]) (fun _ => alike_done s s' 0) fun _ => ?_
    exact h.alike_readChannel hready (by omega) fun size raw => dataWord (toState size raw)
  | rdb sel idx =>
    cases sel with
    | write => cases hreads
    | display =>
      refine h.alike_whenConfigured hinv fun hready => alike_ite (by rw [h.bufferSize])
        (fun _ => alike_trap s s' .range) fun hidx => ?_
      exact h.alike_readByte hready (Nat.lt_of_not_le hidx) fun byte => dataWord byte.toNat

end SamePublished

/-- Settles O38: the two states share all that the checks and the read of such a command look at. -/
theorem decodeSeesOnlyThePublishedFrame : Obligations.DecodeSeesOnlyThePublishedFrame := by
  intro i s s' hreads hinv _ hgeom horder hcfg hframe
  have hsame : SamePublished s s' :=
    ⟨hgeom, horder, hcfg, fun j hj => hframe j (hj.trans_eq (bufferSizeOf_eq s.geom))⟩
  exact hsame.exec_alike hreads hinv

/-! ### The fields no command writes -/

theorem Effect.sameEnv {s t : State} {i : Instr} (h : Effect s i t) : SameEnv s t := by
  cases h with
  | responded | faulted | configured | committed | notCommitted | discarded | displayed | notDisplayed =>
    exact ⟨rfl, rfl, rfl⟩
  | packed | appended | ran => constructor <;> simp

/-- Settles O30: no effect of a command writes them. -/
theorem commandsKeepTheEnvironment : Obligations.CommandsKeepTheEnvironment := fun _ _ _ hexec =>
  (exec_effect hexec).sameEnv

/-! ### A channel in the frame -/

/-- The model's bit offset is the spec's formula (20_memory.md R34, R35). -/
theorem bitOffset_eq (side count size x y z c : Nat) :
    bitOffset count size (voxelIndex side x y z) c = specOffset side count size x y z c := by
  rw [bitOffset, voxelIndex, specOffset, Nat.pow_two, Nat.mul_assoc z]

theorem channelSize_dvd_eight {size : Nat} (h : size = 1 ∨ size = 2 ∨ size = 4 ∨ size = 8) : size ∣ 8 := by
  rcases h with rfl | rfl | rfl | rfl <;> decide

/-- Settles O45: every offset is a multiple of channelSize, which divides 8. -/
theorem channelInsideOneByte : Obligations.ChannelInsideOneByte := by
  intro side count size x y z c _ _ _ _ hmem hx hy hz hc
  have hsize : size = 1 ∨ size = 2 ∨ size = 4 ∨ size = 8 := by simpa using hmem
  have hdvd := dvd_specOffset side count size x y z c
  rw [bitOffset_eq, bitInByte, byteIndex]
  refine ⟨(Nat.dvd_mod_iff (channelSize_dvd_eight hsize)).2 hdvd, mod_add_size_le hsize hdvd,
    specOffset_div_lt hx hy hz hc (by omega), ?_⟩
  rw [Nat.div_add_mod, ← bitOffset_eq]
  rfl

/-! ### The padding of the frame's last byte -/

/-- The place of bit `j` of a byte in the order in which offsets count (20_memory.md R37). -/
def placeInByte (order : Config.BitOrder) (j : Nat) : Nat :=
  match order with
  | .lsbFirst => j
  | .msbFirst => 7 - j

/-- The bits of a channel at offset `o` stand at the offsets below `o + size`, in either bit order. -/
theorem placeInByte_lt {order : Config.BitOrder} {size o j : Nat} (hj : j < 8) (hlo : specShift order size o ≤ j)
    (hhi : j < specShift order size o + size) : 8 * (o / 8) + placeInByte order j < o + size := by
  cases order <;> simp only [specShift, placeInByte] at hlo hhi ⊢ <;> omega

/-- A bit of a channel's own byte at an offset past the last channel is no bit of the channel. -/
theorem State.InCube.not_padding {s : State} {x y z : BitVec 3} {c j : Nat} (hcube : s.InCube x y z)
    (hc : c < s.channelCount) (hj : j < 8)
    (hpad : cubeSideOf s.geom ^ 3 * channelCountOf s.geom * channelSizeOf s.geom ≤
      8 * s.chByte x y z c + placeInByte s.bitOrder j) :
    ¬ (s.chShift x y z c ≤ j ∧ j < s.chShift x y z c + s.channelSize) := by
  rintro ⟨hlo, hhi⟩
  obtain ⟨hx, hy, hz⟩ := hcube
  rw [chShift_eq] at hlo hhi
  rw [chByte_eq] at hpad
  have hplace : 8 * s.specByte x y z c + placeInByte s.bitOrder j < s.specOffset x y z c + s.channelSize :=
    placeInByte_lt hj hlo hhi
  have hend : s.specOffset x y z c + s.channelSize ≤
      cubeSideOf s.geom ^ 3 * channelCountOf s.geom * channelSizeOf s.geom := specOffset_add_size_le hx hy hz hc
  omega

/-- Settles O50: a WRCH changes bits of its channel alone, and every channel ends at or below the first padding bit. -/
theorem wrchKeepsPaddingBits : Obligations.WrchKeepsPaddingBits := by
  intro x y z ch v s t b i j hready hexec hj hpad
  have hpast : cubeSideOf s.geom ^ 3 * channelCountOf s.geom * channelSizeOf s.geom ≤
      8 * i + placeInByte s.bitOrder j := hpad
  cases exec_effect hexec with
  | responded => rw [byteAt_respond]
  | faulted => rw [byteAt_raiseFault]
  | packed _ _ _ _ _ _ hch hcube hv =>
    rw [byteAt_respond, byteAt_storeByte]
    split
    · next hbyte =>
      obtain ⟨rfl, rfl⟩ := hbyte
      rw [getLsbD_insertValue _ (chShift_add_size_le hready.legal x y z ch.toNat) (le_maxValue_iff.1 hv),
        if_neg (hcube.not_padding hch hj hpast)]
    · rfl

/-! ### One step -/

theorem executeWord_legal {w : Word} {i : Instr} (h : decode w = .ok i) (s : State) : executeWord w s = exec i s := by
  simp only [executeWord, h]

theorem executeWord_illegal {w : Word} {why : IllegalWord} (h : decode w = .error why) (s : State) :
    executeWord w s = trap .illegal s := by
  simp only [executeWord, h]

/-- Settles O20: by the port, empty or with an oldest event; a word by what it decodes to. -/
theorem stepRunsTheDecodedCommand : Obligations.StepRunsTheDecodedCommand := by
  intro s rest
  refine ⟨step_idle, fun w i hport hdecode => ?_, fun w why hport hdecode => ?_, fun hport => ?_⟩
  · exact (step_event hport).trans (executeWord_legal hdecode _)
  · exact ⟨_, (step_event hport).trans (executeWord_illegal hdecode _), raiseFault_faults .illegal _⟩
  · exact ⟨_, step_event hport, rfl, rfl, rfl, rfl, rfl⟩

end Sys2Proof.Machine
end

section
/-! Encoding and decoding (30_encoding.md R50-R59): a field of a word put together from placed fields is read back, so
the fields of a command's word are its operands; the fixed bits of a row and its fields together determine the word. -/

namespace Sys2Proof

open Machine

/-! ### Reading a placed field -/

/-- A placed field is that field written into the zero word. -/
theorem place_eq_insertField {n : Nat} (v : BitVec n) (lo : Nat) : place v lo = insertField 0 lo v := by
  simp [place, insertField]

theorem extract_place_same {n lo : Nat} (v : BitVec n) (h : lo + n ≤ 32) : (place v lo).extractLsb' lo n = v := by
  rw [place_eq_insertField, extract_insertField_same _ _ _ h]

theorem extract_place_apart {n lo lo' n' : Nat} (v : BitVec n) (h : lo + n ≤ 32)
    (apart : lo' + n' ≤ lo ∨ lo + n ≤ lo') : (place v lo).extractLsb' lo' n' = 0#n' := by
  rw [place_eq_insertField, extract_insertField_apart _ _ _ h _ _ apart]
  simp

/-- The S bit is a field of one bit. -/
theorem fieldS_eq_iff {w : Word} {sel : BankSel} : fieldS w = sel ↔ w.extractLsb' 27 1 = sel.bit := by
  have hbit : w.extractLsb' 27 1 = BitVec.ofBool (w.getLsbD 27) :=
    BitVec.eq_of_getLsbD_eq fun i hi => by interval_cases i; simp
  rw [fieldS, hbit]
  cases w.getLsbD 27 <;> cases sel <;> decide

/-- Two words select the same role of bank when their S bits agree. -/
theorem fieldS_eq_fieldS_iff {v w : Word} : fieldS v = fieldS w ↔ v.extractLsb' 27 1 = w.extractLsb' 27 1 := by
  rw [fieldS_eq_iff, fieldS_eq_iff.1 (rfl : fieldS w = fieldS w)]

/-! ### The word of a command -/

/-- A command's word has the fixed bits of its row (30_encoding.md R53). -/
theorem encode_and_mask (i : Instr) : encode i &&& i.op.mask = i.op.pattern := by
  cases i with
  | nop => exact Laws.FixedBits.nop
  | config side count size => exact Laws.FixedBits.config side count size
  | rdreg reg => exact Laws.FixedBits.rdreg reg
  | rdch sel x y z ch => exact Laws.FixedBits.rdch sel x y z ch
  | gcb x y z ch => exact Laws.FixedBits.gcb x y z ch
  | gcs x y z ch => exact Laws.FixedBits.gcs x y z ch
  | gvb x y z => exact Laws.FixedBits.gvb x y z
  | gvs x y z => exact Laws.FixedBits.gvs x y z
  | wrch x y z ch value => exact Laws.FixedBits.wrch x y z ch value
  | rdb sel idx => exact Laws.FixedBits.rdb sel idx
  | appb byte => exact Laws.FixedBits.appb byte
  | appr byte run => exact Laws.FixedBits.appr byte run
  | commit => exact Laws.FixedBits.commit
  | discard => exact Laws.FixedBits.discard
  | display => exact Laws.FixedBits.display

/-- The fields of a command's word are its operands (30_encoding.md R50, R59): where one field is read, every part
of the word but the operand placed there is 0. -/
theorem read_encode (i : Instr) : i.op.read (encode i) = i := by
  cases i <;>
    simp [Instr.op, Op.read, fieldX, fieldY, fieldZ, fieldCH, fieldVAL, fieldCSIZE, fieldCCOUNT, fieldCSIDE, fieldIDX,
      fieldRUN, fieldBYTE, fieldREG, fieldS_eq_iff, encode, placeVoxel, BitVec.extractLsb'_or, extract_place_same,
      extract_place_apart]

@[simp] theorem Op.op_read (op : Op) (w : Word) : (op.read w).op = op := by cases op <;> rfl

/-- The one illegal operand value is REG = 3 (30_encoding.md R55). -/
theorem Op.wf_read_iff {op : Op} {w : Word} : (op.read w).wf = true ↔ ¬ (op = .rdreg ∧ fieldREG w = 3) := by
  cases op <;> simp [Op.read, Instr.wf]

/-- Settles O16: the word of a command has the fixed bits of its row, and its fields are the command's operands. -/
theorem decodeOfEncode : Obligations.DecodeOfEncode := by
  intro i hwf
  have hread := read_encode i
  rw [← hread, Op.wf_read_iff] at hwf
  rw [decode_of_match (encode_and_mask i) hwf, hread]

/-! ### The command of a word -/

/-- The operand fields of a row's format, each its lowest bit and its width (30_encoding.md R50). -/
def Op.fields : Op → List (Nat × Nat)
  | .nop => []
  | .config => [(0, 8), (8, 8), (16, 8)]
  | .rdreg => [(0, 2)]
  | .rdch => [(27, 1), (0, 3), (3, 3), (6, 3), (9, 2)]
  | .gcb => [(0, 3), (3, 3), (6, 3), (9, 2)]
  | .gcs => [(0, 3), (3, 3), (6, 3), (9, 2)]
  | .gvb => [(0, 3), (3, 3), (6, 3)]
  | .gvs => [(0, 3), (3, 3), (6, 3)]
  | .wrch => [(0, 3), (3, 3), (6, 3), (9, 2), (16, 8)]
  | .rdb => [(27, 1), (0, 11)]
  | .appb => [(0, 8)]
  | .appr => [(0, 8), (8, 8)]
  | .commit => []
  | .discard => []
  | .display => []

/-- Every bit of a word is fixed by the row or stands in a field of its format (30_encoding.md R53). -/
theorem Op.bit_fixed_or_in_field (op : Op) :
    ∀ i < 32, op.mask.getLsbD i = true ∨ ∃ f ∈ op.fields, f.1 ≤ i ∧ i < f.1 + f.2 := by
  cases op <;> decide

/-- Two words read as the same command when they agree in every field of its format. -/
theorem Op.read_eq_read_iff {op : Op} {v w : Word} :
    op.read v = op.read w ↔ ∀ f ∈ op.fields, v.extractLsb' f.1 f.2 = w.extractLsb' f.1 f.2 := by
  cases op <;>
    simp [Op.read, Op.fields, fieldX, fieldY, fieldZ, fieldCH, fieldVAL, fieldCSIZE, fieldCCOUNT, fieldCSIDE, fieldIDX,
      fieldRUN, fieldBYTE, fieldREG, fieldS_eq_fieldS_iff]

theorem getLsbD_of_extract_eq {v w : Word} {lo n i : Nat} (h : v.extractLsb' lo n = w.extractLsb' lo n) (hlo : lo ≤ i)
    (hhi : i < lo + n) : v.getLsbD i = w.getLsbD i := by
  have hbit := congrArg (·.getLsbD (i - lo)) h
  have hn : i - lo < n := by omega
  simpa [BitVec.getLsbD_extractLsb', hn, Nat.add_sub_cancel' hlo] using hbit

theorem getLsbD_of_and_eq {v w m : Word} {i : Nat} (h : v &&& m = w &&& m) (hm : m.getLsbD i = true) :
    v.getLsbD i = w.getLsbD i := by
  simpa [hm] using congrArg (·.getLsbD i) h

/-- The fixed bits and the fields determine the word: each operation has one legal word (decision D36). -/
theorem Op.word_unique {op : Op} {v w : Word} (hfixed : v &&& op.mask = w &&& op.mask) (hread : op.read v = op.read w) :
    v = w := by
  refine BitVec.eq_of_getLsbD_eq fun i hi => ?_
  rcases op.bit_fixed_or_in_field i hi with hbit | ⟨f, hf, hlo, hhi⟩
  · exact getLsbD_of_and_eq hfixed hbit
  · exact getLsbD_of_extract_eq (Op.read_eq_read_iff.1 hread f hf) hlo hhi

/-- A word with its row's fixed bits is the word of the command its fields give. -/
theorem encode_read {op : Op} {w : Word} (h : w &&& op.mask = op.pattern) : encode (op.read w) = w := by
  have hfixed := encode_and_mask (op.read w)
  have hread := read_encode (op.read w)
  rw [Op.op_read] at hfixed hread
  exact Op.word_unique (hfixed.trans h.symm) hread

/-- Settles O17: the word agrees with its row, and its fields are no illegal operands. -/
theorem encodeOfDecode : Obligations.EncodeOfDecode := by
  intro w i h
  obtain ⟨op, hmatch, hlegal, rfl⟩ := decode_ok h
  exact ⟨Op.wf_read_iff.2 hlegal, encode_read hmatch⟩

end Sys2Proof
end

section
/-! The illegal words (30_encoding.md R53-R57): the opcode map names a row for every OP but 0xF, and a word decodes
exactly when it agrees with a row and is no RDREG of register 3. -/

namespace Sys2Proof

open Machine

/-! ### The opcode map and the opcode table -/

/-- The OP field of a row's words. -/
def Op.code (op : Op) : BitVec 4 := BitVec.ofNat 4 op.codeOf

theorem Op.code_toNat (op : Op) : op.code.toNat = op.codeOf := by cases op <;> rfl

theorem Op.code_injective {op op' : Op} (h : op.code = op'.code) : op = op' := by
  have hsome : some op = some op' := by
    rw [← Op.ofCode_codeOf op, ← Op.ofCode_codeOf op', ← Op.code_toNat, ← Op.code_toNat, h]
  exact Option.some.inj hsome

/-- OP = 0xF selects no row (30_encoding.md R54). -/
theorem Op.code_ne_reserved (op : Op) : op.code ≠ 0xF#4 := by cases op <;> decide

/-- Every other OP value selects a row (30_encoding.md R49). -/
theorem Op.exists_code {c : BitVec 4} (h : c ≠ 0xF#4) : ∃ op : Op, c = op.code := by
  cases hrow : Op.ofCode c.toNat with
  | some op => exact ⟨op, BitVec.eq_of_toNat_eq ((Op.ofCode_eq_some hrow).trans op.code_toNat.symm)⟩
  | none =>
    have hnone : ∀ c : BitVec 4, Op.ofCode c.toNat = none → c = 0xF#4 := by decide
    exact absurd (hnone c hrow) h

/-- A word that agrees with a row has the row's OP. -/
theorem fieldOP_eq_code {w : Word} {op : Op} (h : w &&& op.mask = op.pattern) : fieldOP w = op.code :=
  BitVec.eq_of_toNat_eq ((fieldOP_of_match h).trans op.code_toNat.symm)

/-- The rows in the order of the opcode table (30_encoding.md R49). -/
def Op.rows : List Op :=
  [.nop, .config, .rdreg, .rdch, .gcb, .gcs, .gvb, .gvs, .wrch, .rdb, .appb, .appr, .commit, .discard, .display]

theorem Op.mem_rows (op : Op) : op ∈ Op.rows := by cases op <;> decide

/-- A row of the opcode table as it is written: OP, mask and match (30_encoding.md R53). -/
def Op.row (op : Op) : BitVec 4 × Word × Word := (op.code, op.mask, op.pattern)

/-- What holds of some row of the written table holds of some command's row. -/
theorem Op.exists_row_iff {p : BitVec 4 × Word × Word → Prop} :
    (∃ row ∈ Op.rows.map Op.row, p row) ↔ ∃ op : Op, p op.row := by
  simp [Op.mem_rows]

/-! ### The illegal words -/

/-- A word is illegal exactly when every row it agrees with is RDREG, with REG = 3. -/
theorem decode_error_iff {w : Word} :
    (∃ why, decode w = .error why) ↔ ∀ op : Op, w &&& op.mask = op.pattern → op = .rdreg ∧ fieldREG w = 3 := by
  constructor
  · rintro ⟨why, herror⟩ op hmatch
    by_contra hlegal
    cases herror.symm.trans (decode_of_match hmatch hlegal)
  · intro hrows
    cases hdecode : decode w with
    | error why => exact ⟨why, rfl⟩
    | ok i =>
      obtain ⟨op, hmatch, hlegal, -⟩ := decode_ok hdecode
      exact absurd (hrows op hmatch) hlegal

/-- The strict check (30_encoding.md R53-R55) by OP: none, the row's fixed bits, the register. -/
theorem decode_error_iff_strict {w : Word} :
    (∃ why, decode w = .error why) ↔
      fieldOP w = 0xF#4 ∨ (fieldOP w = Op.code .rdreg ∧ fieldREG w = 3) ∨
        ∃ op : Op, fieldOP w = op.code ∧ w &&& op.mask ≠ op.pattern := by
  rw [decode_error_iff]
  constructor
  · intro hrows
    by_cases hreserved : fieldOP w = 0xF#4
    · exact .inl hreserved
    · obtain ⟨op, hop⟩ := Op.exists_code hreserved
      by_cases hmatch : w &&& op.mask = op.pattern
      · obtain ⟨rfl, hreg⟩ := hrows op hmatch
        exact .inr (.inl ⟨hop, hreg⟩)
      · exact .inr (.inr ⟨op, hop, hmatch⟩)
  · intro hstrict op hmatch
    have hop := fieldOP_eq_code hmatch
    rcases hstrict with hreserved | ⟨hrdreg, hreg⟩ | ⟨op', hop', hdiffers⟩
    · exact absurd (hop.symm.trans hreserved) op.code_ne_reserved
    · exact ⟨Op.code_injective (hop.symm.trans hrdreg), hreg⟩
    · cases Op.code_injective (hop'.symm.trans hop)
      exact absurd hmatch hdiffers

/-- An illegal word faults ILLEGAL in every state, with no other effect (30_encoding.md R53). -/
theorem executeWord_illegal_faults {w : Word} {why : IllegalWord} (h : decode w = .error why) (s : State) :
    ∃ t, executeWord w s = .next t ∧ Faults s t 1 :=
  ⟨_, executeWord_illegal h s, raiseFault_faults .illegal s⟩

/-- Settles O18, by the strict check; the written table is that of the model's rows. -/
theorem illegalWordsAreExactly : Obligations.IllegalWordsAreExactly := by
  refine ⟨fun w ⟨_, herror⟩ => executeWord_illegal_faults herror, fun w => ?_⟩
  refine decode_error_iff_strict.trans (or_congr_right (or_congr_right ?_))
  exact Op.exists_row_iff (p := fun row => fieldOP w = row.1 ∧ w &&& row.2.1 ≠ row.2.2).symm

/-- Settles O19, by evaluating the decoder on each word. -/
theorem specWordsDecode : Obligations.SpecWordsDecode := by
  unfold Obligations.SpecWordsDecode
  decide

end Sys2Proof
end

section
/-! The prelude and the response (30_encoding.md R52, R58): a data command faults NOCFG before CONFIG, every response is
well formed, and the result of a decode command fits in a byte. -/

namespace Sys2Proof.Machine

/-! ### The prelude -/

/-- A data command faults NOCFG while CFG_VALID = 0 (30_encoding.md R58). -/
theorem exec_nocfg_of_isDataCommand {i : Instr} {s : State} (hdata : isDataCommand i = true)
    (hc : cfgValidOf s.status = false) : exec i s = trap .nocfg s := by
  cases i with
  | nop | config | rdreg => cases hdata
  | rdch | gcb | gcs | gvb | gvs | wrch | rdb | appb | appr | commit | discard | display => exact exec_nocfg hc rfl

/-- Settles O22, by what the word decodes to. -/
theorem preludeOrder : Obligations.PreludeOrder := by
  intro w s
  refine ⟨fun why herror => executeWord_illegal_faults herror s, fun i hdecode hdata hc => ?_,
    fun i hdecode => executeWord_legal hdecode s⟩
  exact ⟨_, (executeWord_legal hdecode s).trans (exec_nocfg_of_isDataCommand hdata hc), raiseFault_faults .nocfg s⟩

/-! ### The response of a word -/

theorem FaultCode.code_ne_zero (c : FaultCode) : c.code ≠ 0 := by cases c <;> decide

/-- CODE is 0 without a fault and not 0 with one, and a fault has DATA 0 (30_encoding.md R52). -/
def Response.WellFormed (r : Response) : Prop :=
  (r.fault = false → r.code = 0) ∧ (r.fault = true → r.code ≠ 0 ∧ r.data = 0)

theorem Effect.response_wellFormed {s t : State} {i : Instr} {r : Response} (h : Effect s i t)
    (hr : t.responses = s.responses ++ [r]) : r.WellFormed := by
  rcases h.faulted_or_responds with ⟨c, rfl⟩ | ⟨⟨d, hd⟩, -⟩
  · cases response_unique (raiseFault_responses c s) hr
    exact ⟨fun hno => Bool.noConfusion hno, fun _ => ⟨c.code_ne_zero, rfl⟩⟩
  · cases response_unique hd hr
    exact ⟨fun _ => rfl, fun hfault => Bool.noConfusion hfault⟩

/-! ### The results of the decode commands -/

theorem extractValue_lt_256 (byte : Byte) (sh size : Nat) : extractValue byte sh size < 256 :=
  calc extractValue byte sh size ≤ byte.toNat >>> sh := Nat.and_le_left
    _ ≤ byte.toNat := Nat.shiftRight_le _ _
    _ < 256 := byte.isLt

/-- A brightness is at most 255 (41_decode.md R71). -/
theorem toBrightness_lt_256 {size raw : Nat} (h : raw ≤ maxValue size) : toBrightness size raw < 256 :=
  calc toBrightness size raw ≤ maxValue size * (255 / maxValue size) := Nat.mul_le_mul_right _ h
    _ ≤ 255 := Nat.mul_div_le _ _
    _ < 256 := by decide

theorem toState_lt_256 (size raw : Nat) : toState size raw < 256 := by
  unfold toState
  split <;> decide

theorem dataWord_toNat_lt {n : Nat} (h : n < 256) : (dataWord n).toNat < 256 := by
  rw [dataWord, BitVec.toNat_ofNat]
  exact (Nat.mod_le _ _).trans_lt h

/-- An outcome whose one new response has its DATA below 256. -/
def AnswersByte (s : State) (a : Result) : Prop :=
  ∀ t r, a = .next t → t.responses = s.responses ++ [r] → r.data.toNat < 256

theorem answersByte_done {s : State} {d : Word} (hd : d.toNat < 256) : AnswersByte s (done d s) := by
  intro t r ht hr
  cases ht
  cases response_unique (respond_responses d s) hr
  exact hd

theorem answersByte_trap (c : FaultCode) (s : State) : AnswersByte s (trap c s) := by
  intro t r ht hr
  cases ht
  cases response_unique (raiseFault_responses c s) hr
  exact (by decide : (0 : Word).toNat < 256)

theorem answersByte_ite {s : State} {p : Prop} [Decidable p] {a b : Result} (ha : AnswersByte s a)
    (hb : AnswersByte s b) : AnswersByte s (if p then a else b) := by
  split
  · exact ha
  · exact hb

/-- A neutral result is 0 (60_exceptions.md R106). -/
theorem answersByte_neutral (s : State) : AnswersByte s (done 0 s) := answersByte_done (by decide)

theorem answersByte_whenConfigured {s : State} {body : Result} (hbody : AnswersByte s body) :
    AnswersByte s (whenConfigured s body) := answersByte_ite hbody (answersByte_trap _ s)

theorem answersByte_bankRead {s : State} {b : BankId} {i : Nat} {go : Byte → Result}
    (hgo : AnswersByte s (go (s.byteAt b i))) : AnswersByte s (bankRead b i s go) :=
  fun t r ht hr => hgo t r (bankRead_next ht).2 hr

/-- A channel looked up answers a byte when the number `value` makes of its raw value is one. -/
theorem answersByte_channel {s : State} {b : BankId} {x y z : BitVec 3} {c : Nat} {value : Nat → Nat}
    (hvalue : ∀ raw < 256, raw ≤ maxValue s.channelSize → value raw < 256) :
    AnswersByte s (whenInRange x y z s (extractChannel b x y z c s fun raw => done (dataWord (value raw)) s)) := by
  refine answersByte_ite (answersByte_bankRead (answersByte_done (dataWord_toNat_lt ?_))) (answersByte_trap _ s)
  exact hvalue _ (extractValue_lt_256 _ _ _) (extractValue_le _ _ _)

/-- The result of a decode command stands in DATA[7:0] (30_encoding.md R52), in every state. -/
theorem exec_answersByte {i : Instr} (h : isDecodeCommand i = true) (s : State) : AnswersByte s (exec i s) := by
  cases i with
  | nop | config | rdreg | wrch | appb | appr | commit | discard | display => cases h
  | rdch sel x y z ch =>
    refine answersByte_whenConfigured (answersByte_ite (answersByte_neutral s) ?_)
    exact answersByte_channel fun raw hraw _ => hraw
  | gcb x y z ch =>
    refine answersByte_whenConfigured (answersByte_ite (answersByte_neutral s) ?_)
    exact answersByte_channel fun raw _ hmax => toBrightness_lt_256 hmax
  | gcs x y z ch =>
    refine answersByte_whenConfigured (answersByte_ite (answersByte_neutral s) ?_)
    refine answersByte_ite (answersByte_neutral s) ?_
    exact answersByte_channel fun raw _ _ => toState_lt_256 _ raw
  | gvb x y z =>
    refine answersByte_whenConfigured (answersByte_ite (answersByte_neutral s) ?_)
    exact answersByte_channel fun raw _ hmax => toBrightness_lt_256 hmax
  | gvs x y z =>
    refine answersByte_whenConfigured (answersByte_ite (answersByte_neutral s) ?_)
    refine answersByte_ite (answersByte_neutral s) ?_
    exact answersByte_channel fun raw _ _ => toState_lt_256 _ raw
  | rdb sel idx =>
    refine answersByte_whenConfigured (answersByte_ite (answersByte_trap _ s) ?_)
    exact answersByte_bankRead (answersByte_done (dataWord_toNat_lt (BitVec.isLt _)))

/-- Settles O23: the word completes with one response, which every effect of a command forms well. -/
theorem everyWordIsAnsweredOnce : Obligations.EveryWordIsAnsweredOnce := by
  intro w s hinv
  obtain ⟨t, hword, -, r, hr⟩ := executeWord_completes w hinv
  obtain ⟨_, heffect⟩ := executeWord_effect hword
  obtain ⟨hno, hfault⟩ := heffect.response_wellFormed hr
  refine ⟨t, r, hword, hr, hno, hfault, fun i hdecode hcommand => ?_⟩
  exact exec_answersByte hcommand s t r ((executeWord_legal hdecode s).symm.trans hword) hr

end Sys2Proof.Machine
end

section
/-! The system commands NOP, CONFIG and RDREG (40_system.md R65-R67): the words of a row, once for every command, and the
geometry that CONFIG writes. -/

namespace Sys2Proof.Machine

/-! ### The words of a row -/

/-- Among the words with a row's OP the legal ones read as the row's command, and every other one faults ILLEGAL
(30_encoding.md R53-R55). -/
theorem encodedAs_row (op : Op) {legal : Word → Prop}
    (hlegal : ∀ w, legal w ↔ w &&& op.mask = op.pattern ∧ ¬ (op = .rdreg ∧ fieldREG w = 3)) :
    EncodedAs op.code legal fun w => op.read w := by
  intro w hop
  refine ⟨fun h => ?_, fun h s => ?_⟩
  · obtain ⟨hmatch, hreg⟩ := (hlegal w).1 h
    exact decode_of_match hmatch hreg
  · have herror : ∃ why, decode w = .error why := by
      refine decode_error_iff.2 fun op' hmatch => ?_
      cases Op.code_injective (hop.symm.trans (fieldOP_eq_code hmatch))
      by_contra hreg
      exact h ((hlegal w).2 ⟨hmatch, hreg⟩)
    obtain ⟨_, herror⟩ := herror
    exact executeWord_illegal_faults herror s

/-- In every row but that of RDREG the fixed bits alone make a word legal (30_encoding.md R53). -/
theorem encodedAs_of_ne_rdreg {op : Op} (hop : op ≠ .rdreg) :
    EncodedAs op.code (fun w => w &&& op.mask = op.pattern) fun w => op.read w :=
  encodedAs_row op fun _ => (and_iff_left fun h => hop h.1).symm

/-! ### NOP -/

/-- Settles O1: the row of NOP fixes every bit, and NOP only responds. -/
theorem nopRespondsZero : Obligations.NopRespondsZero :=
  ⟨encodedAs_of_ne_rdreg (op := .nop) (by decide), fun _ => completes_of_done rfl⟩

/-! ### RDREG -/

/-- Settles O3: each register is answered as it stands, and the model's bufferSize is the formula's. -/
theorem rdregReadsRegisters : Obligations.RdregReadsRegisters := by
  refine ⟨encodedAs_row .rdreg fun w => ?_, fun s => ⟨completes_of_done rfl, completes_of_done rfl, ?_⟩⟩
  · exact and_congr_right' (not_congr (and_iff_right rfl)).symm
  · rw [← bufferSizeOf_eq]
    exact completes_of_done rfl

/-! ### CONFIG -/

/-- The domain of a geometry as it is written in 10_state.md R18. -/
theorem legalGeom_iff_mem {side count size : Nat} :
    legalGeom side count size = true ↔ 1 ≤ side ∧ side ≤ 8 ∧ 1 ≤ count ∧ count ≤ 3 ∧ size ∈ [1, 2, 4, 8] :=
  decide_eq_true_iff

theorem exec_config_badcfg {side count size : BitVec 8} {s : State} (hc : cfgValidOf s.status = false)
    (hlegal : ¬ legalGeom side.toNat count.toNat size.toNat = true) :
    exec (.config side count size) s = trap .badcfg s :=
  (if_neg (ne_true_of_eq_false hc)).trans (if_neg hlegal)

theorem exec_config_sets {side count size : BitVec 8} {s : State} (hc : cfgValidOf s.status = false)
    (hlegal : legalGeom side.toNat count.toNat size.toNat = true) :
    exec (.config side count size) s =
      done 0 { s with geom := setGeometry s.geom side count size, status := setCfgValid s.status true } :=
  (if_neg (ne_true_of_eq_false hc)).trans (if_pos hlegal)

/-- Settles O2: the three outcomes of CONFIG in the order of its checks; the three bytes of GEOM are read back, and the
word STATE changes in the bit CFG_VALID alone. -/
theorem configSetsGeometryOnce : Obligations.ConfigSetsGeometryOnce := by
  refine ⟨encodedAs_of_ne_rdreg (op := .config) (by decide), fun side count size s => ⟨fun hc => ?reconfig,
    fun hc hillegal => ?badcfg, fun hc hlegal => ⟨_, exec_config_sets hc (legalGeom_iff_mem.2 hlegal), rfl, ?side,
      ?count, ?size, ?reserved, ?valid, fun j hj => ?status, fun b j => ?banks, ⟨rfl, rfl, rfl⟩⟩⟩⟩
  case reconfig => exact completes_of_trap (exec_config_reconfig hc)
  case badcfg => exact completes_of_trap (exec_config_badcfg hc fun hlegal => hillegal (legalGeom_iff_mem.1 hlegal))
  case side => exact BitVec.eq_of_toNat_eq (cubeSideOf_setGeometry s.geom side count size)
  case count => exact BitVec.eq_of_toNat_eq (channelCountOf_setGeometry s.geom side count size)
  case size => exact BitVec.eq_of_toNat_eq (channelSizeOf_setGeometry s.geom side count size)
  case reserved => exact reservedGeom_setGeometry s.geom side count size
  case valid => exact cfgValidOf_setCfgValid s.status true
  case status => exact (getLsbD_setCfgValid s.status true j).trans (if_neg (by omega))
  case banks => exact byteAt_congr (by cases b <;> rfl) rfl j

end Sys2Proof.Machine
end

section
/-! The decode commands (41_decode.md R69-R80): RDCH, GCB, GCS, GVB and GVS make one query of a channel, with different
neutral cases and different numbers made of the raw value; RDB reads a byte. -/

namespace Sys2Proof.Machine

/-! ### Brightness -/

/-- 255 is an exact multiple of channelMaxValue for every legal channelSize (41_decode.md R71). -/
theorem maxValue_dvd_255 {size : Nat} (h : size ∈ [1, 2, 4, 8]) : maxValue size ∣ 255 := by
  revert size
  decide

theorem multiplier_pos {size : Nat} (h : size ∈ [1, 2, 4, 8]) : 0 < 255 / maxValue size :=
  Nat.pos_of_dvd_of_pos (Nat.div_dvd_of_dvd (maxValue_dvd_255 h)) (by decide)

theorem toBrightness_mul_maxValue {size : Nat} (h : size ∈ [1, 2, 4, 8]) (raw : Nat) :
    toBrightness size raw * maxValue size = raw * 255 := by
  rw [toBrightness, Nat.mul_assoc, Nat.div_mul_cancel (maxValue_dvd_255 h)]

theorem toBrightness_zero (size : Nat) : toBrightness size 0 = 0 := Nat.zero_mul _

theorem toBrightness_maxValue {size : Nat} (h : size ∈ [1, 2, 4, 8]) : toBrightness size (maxValue size) = 255 :=
  Nat.mul_div_cancel' (maxValue_dvd_255 h)

theorem toBrightness_strictMono {size : Nat} (h : size ∈ [1, 2, 4, 8]) : StrictMono (toBrightness size) :=
  fun _ _ hlt => Nat.mul_lt_mul_of_pos_right hlt (multiplier_pos h)

/-- Settles O47: channelMaxValue divides 255, so the multiplier is exact and positive. -/
theorem brightnessLaws : Obligations.BrightnessLaws := by
  refine ⟨fun raw => ⟨Nat.mul_comm raw 255, Nat.mul_comm raw 85, Nat.mul_comm raw 17, Nat.mul_one raw⟩,
    fun size raw raw' hsize hlt hmax => ?_⟩
  exact ⟨toBrightness_mul_maxValue hsize raw, toBrightness_zero size, toBrightness_maxValue hsize,
    toBrightness_strictMono hsize hlt, Nat.le_of_lt_succ (toBrightness_lt_256 hmax)⟩

/-! ### The state of a channel -/

/-- At channelSize 1 the state of a channel is its raw bit (41_decode.md R72). -/
theorem toState_one {raw : Nat} (h : raw ≤ 1) : toState 1 raw = raw := by
  unfold toState
  split <;> omega

theorem specRaw_le (s : State) (b : BankId) (x y z : BitVec 3) (c : Nat) :
    s.specRaw b x y z c ≤ maxValue s.channelSize := by
  rw [← rawAt_eq]
  exact extractValue_le _ _ _

theorem toState_specRaw {s : State} (h : s.channelSize = 1) (b : BankId) (x y z : BitVec 3) (c : Nat) :
    toState s.channelSize (s.specRaw b x y z c) = s.specRaw b x y z c := by
  have hraw := specRaw_le s b x y z c
  rw [h] at hraw ⊢
  exact toState_one hraw

/-! ### The query of a channel -/

/-- The query that RDCH, GCB, GCS, GVB and GVS make (41_decode.md R74-R78, in the order of 60_exceptions.md R96): the
prelude, the neutral result 0, the coordinate check, and `value` of the raw value that bank `b` holds. -/
def channelQuery (neutral : Prop) [Decidable neutral] (b : BankId) (x y z : BitVec 3) (c : Nat) (value : Nat → Nat)
    (s : State) : Result :=
  whenConfigured s <|
    if neutral then done 0 s
    else whenInRange x y z s <| extractChannel b x y z c s fun raw => done (dataWord (value raw)) s

theorem exec_rdch_eq (sel : BankSel) (x y z : BitVec 3) (ch : BitVec 2) (s : State) :
    exec (.rdch sel x y z ch) s =
      channelQuery (s.channelCount ≤ ch.toNat) (s.bankOf sel) x y z ch.toNat id s := rfl

theorem exec_gcb_eq (x y z : BitVec 3) (ch : BitVec 2) (s : State) :
    exec (.gcb x y z ch) s =
      channelQuery (s.channelCount ≤ ch.toNat) s.displayBank x y z ch.toNat (toBrightness s.channelSize) s := rfl

theorem exec_gcs_eq (x y z : BitVec 3) (ch : BitVec 2) (s : State) :
    exec (.gcs x y z ch) s =
      channelQuery (s.channelCount ≤ ch.toNat ∨ s.channelSize ≠ 1) s.displayBank x y z ch.toNat
        (toState s.channelSize) s := by
  rw [channelQuery, ite_or]
  rfl

theorem exec_gvb_eq (x y z : BitVec 3) (s : State) :
    exec (.gvb x y z) s =
      channelQuery (s.channelCount ≠ 1) s.displayBank x y z 0 (toBrightness s.channelSize) s := rfl

theorem exec_gvs_eq (x y z : BitVec 3) (s : State) :
    exec (.gvs x y z) s =
      channelQuery (s.channelCount ≠ 1 ∨ s.channelSize ≠ 1) s.displayBank x y z 0 (toState s.channelSize) s := by
  rw [channelQuery, ite_or]
  rfl

section
variable {neutral : Prop} [Decidable neutral] {b : BankId} {x y z : BitVec 3} {c : Nat} {value : Nat → Nat} {s : State}

theorem channelQuery_nocfg (hc : cfgValidOf s.status = false) :
    channelQuery neutral b x y z c value s = trap .nocfg s := whenConfigured_of_not hc

theorem channelQuery_neutral (hc : cfgValidOf s.status = true) (hn : neutral) :
    channelQuery neutral b x y z c value s = done 0 s := (whenConfigured_of hc).trans (if_pos hn)

theorem channelQuery_coord (hc : cfgValidOf s.status = true) (hn : ¬ neutral) (hcube : ¬ s.InCube x y z) :
    channelQuery neutral b x y z c value s = trap .coord s := by
  rw [channelQuery, whenConfigured_of hc, if_neg hn, whenInRange_of_not hcube]

/-- A channel of the geometry inside the cube is read as the spec's formula says (20_memory.md R34-R37). -/
theorem channelQuery_reads (hready : s.Ready) (hn : ¬ neutral) (hcube : s.InCube x y z) (hch : c < s.channelCount) :
    channelQuery neutral b x y z c value s = done (dataWord (value (s.specRaw b x y z c))) s := by
  have hbank := (chByte_lt hready.legal hcube hch).2
  rw [channelQuery, whenConfigured_of hready.2, if_neg hn, whenInRange_of hcube, extractChannel_of_lt hbank, rawAt_eq]

/-- Everything a query of a channel can do. -/
theorem channelQuery_next {t : State} (h : channelQuery neutral b x y z c value s = .next t) :
    (∃ d, t = respond d s) ∨ t = raiseFault .nocfg s ∨ t = raiseFault .coord s := by
  rcases whenConfigured_next h with ⟨-, h⟩ | rfl
  · split at h
    · cases h
      exact .inl ⟨_, rfl⟩
    · rcases whenInRange_next h with ⟨-, h⟩ | rfl
      · cases extractChannel_next h
        exact .inl ⟨_, rfl⟩
      · exact .inr (.inr rfl)
  · exact .inr (.inl rfl)

/-- The four clauses of a command that makes a query of a channel. -/
theorem completes_of_channelQuery {i : Instr} (hexec : exec i s = channelQuery neutral b x y z c value s)
    (hinv : s.Inv) (hch : ¬ neutral → c < s.channelCount) :
    (cfgValidOf s.status = false → Completes i s fun t => Faults s t 2) ∧
    (cfgValidOf s.status = true → neutral → Completes i s fun t => OnlyResponds s t 0) ∧
    (cfgValidOf s.status = true → ¬ neutral → ¬ s.InCube x y z → Completes i s fun t => Faults s t 5) ∧
    (cfgValidOf s.status = true → ¬ neutral → s.InCube x y z →
      Completes i s fun t => OnlyResponds s t (dataWord (value (s.specRaw b x y z c)))) := by
  refine ⟨fun hc => ?nocfg, fun hc hn => ?neutral, fun hc hn hcube => ?coord, fun hc hn hcube => ?reads⟩
  case nocfg => exact completes_of_trap (hexec.trans (channelQuery_nocfg hc))
  case neutral => exact completes_of_done (hexec.trans (channelQuery_neutral hc hn))
  case coord => exact completes_of_trap (hexec.trans (channelQuery_coord hc hn hcube))
  case reads => exact completes_of_done (hexec.trans (channelQuery_reads ⟨hinv, hc⟩ hn hcube (hch hn)))

end

/-- Settles O4: RDCH is the query whose number is the raw value itself. -/
theorem rdchReturnsRawValue : Obligations.RdchReturnsRawValue := by
  refine ⟨encodedAs_of_ne_rdreg (op := .rdch) (by decide), fun sel x y z ch s hinv => ?_⟩
  obtain ⟨hnocfg, hneutral, hcoord, hreads⟩ :=
    completes_of_channelQuery (exec_rdch_eq sel x y z ch s) hinv Nat.lt_of_not_le
  rw [bankOf_eq] at hreads
  exact ⟨hnocfg, hneutral, fun hc hch => hcoord hc (Nat.not_le.2 hch), fun hc hch => hreads hc (Nat.not_le.2 hch)⟩

/-- Settles O5: GCB is the query whose number is the brightness, with R71's multiplier. -/
theorem gcbReturnsBrightness : Obligations.GcbReturnsBrightness := by
  refine ⟨encodedAs_of_ne_rdreg (op := .gcb) (by decide), fun x y z ch s hinv => ?_⟩
  obtain ⟨hnocfg, hneutral, hcoord, hreads⟩ :=
    completes_of_channelQuery (exec_gcb_eq x y z ch s) hinv Nat.lt_of_not_le
  exact ⟨hnocfg, hneutral, fun hc hch => hcoord hc (Nat.not_le.2 hch), fun hc hch => hreads hc (Nat.not_le.2 hch)⟩

/-- Settles O6: GCS is the query with two neutral cases; past them channelSize is 1 and the state is the raw bit. -/
theorem gcsReturnsChannelState : Obligations.GcsReturnsChannelState := by
  refine ⟨encodedAs_of_ne_rdreg (op := .gcs) (by decide), fun x y z ch s hinv => ?_⟩
  obtain ⟨hnocfg, hneutral, hcoord, hreads⟩ := completes_of_channelQuery (exec_gcs_eq x y z ch s) hinv
    fun hn => Nat.lt_of_not_le (not_or.1 hn).1
  have hpast (hch : ch.toNat < s.channelCount) (hsize : s.channelSize = 1) :
      ¬ (s.channelCount ≤ ch.toNat ∨ s.channelSize ≠ 1) := not_or.2 ⟨Nat.not_le.2 hch, not_not.2 hsize⟩
  refine ⟨hnocfg, hneutral, fun hc hch hsize => hcoord hc (hpast hch hsize), fun hc hch hsize hcube => ?_⟩
  have hread := hreads hc (hpast hch hsize) hcube
  rwa [toState_specRaw hsize] at hread

/-- Settles O7: GVB is the query of channel 0 whose number is the brightness. -/
theorem gvbReturnsVoxelBrightness : Obligations.GvbReturnsVoxelBrightness := by
  refine ⟨encodedAs_of_ne_rdreg (op := .gvb) (by decide), fun x y z s hinv => ?_⟩
  obtain ⟨hnocfg, hneutral, hcoord, hreads⟩ := completes_of_channelQuery (exec_gvb_eq x y z s) hinv
    fun hn => by omega
  exact ⟨hnocfg, hneutral, fun hc hone => hcoord hc (not_not.2 hone), fun hc hone => hreads hc (not_not.2 hone)⟩

/-- Settles O8: GVS is the query of channel 0 with two neutral cases; past them the state is the raw bit. -/
theorem gvsReturnsVoxelState : Obligations.GvsReturnsVoxelState := by
  refine ⟨encodedAs_of_ne_rdreg (op := .gvs) (by decide), fun x y z s hinv => ?_⟩
  obtain ⟨hnocfg, hneutral, hcoord, hreads⟩ := completes_of_channelQuery (exec_gvs_eq x y z s) hinv
    fun hn => by omega
  have hpast (hone : s.channelCount = 1) (hsize : s.channelSize = 1) :
      ¬ (s.channelCount ≠ 1 ∨ s.channelSize ≠ 1) := not_or.2 ⟨not_not.2 hone, not_not.2 hsize⟩
  refine ⟨hnocfg, hneutral, fun hc hone hsize => hcoord hc (hpast hone hsize), fun hc hone hsize hcube => ?_⟩
  have hread := hreads hc (hpast hone hsize) hcube
  rwa [toState_specRaw hsize] at hread

/-! ### RDB -/

theorem exec_rdb_range {sel : BankSel} {idx : BitVec 11} {s : State} (hc : cfgValidOf s.status = true)
    (hidx : s.bufferSize ≤ idx.toNat) : exec (.rdb sel idx) s = trap .range s :=
  (whenConfigured_of hc).trans (if_pos hidx)

theorem exec_rdb_reads {sel : BankSel} {idx : BitVec 11} {s : State} (hready : s.Ready)
    (hidx : idx.toNat < s.bufferSize) :
    exec (.rdb sel idx) s = done (dataWord (s.byteAt (s.bankOf sel) idx.toNat).toNat) s := by
  simp only [exec, execRdb, whenConfigured_of hready.2, if_neg (Nat.not_le.2 hidx),
    bankRead_of_lt (hidx.trans_le hready.size.2)]

/-- Everything RDB can do. -/
theorem exec_rdb_next {sel : BankSel} {idx : BitVec 11} {s t : State} (h : exec (.rdb sel idx) s = .next t) :
    (∃ d, t = respond d s) ∨ t = raiseFault .nocfg s ∨ t = raiseFault .range s := by
  rcases whenConfigured_next h with ⟨-, h⟩ | rfl
  · split at h
    · cases h
      exact .inr (.inr rfl)
    · cases (bankRead_next h).2
      exact .inl ⟨_, rfl⟩
  · exact .inr (.inl rfl)

/-- Settles O10: an index inside the frame is an index inside the bank, which is read as it stands. -/
theorem rdbReturnsByte : Obligations.RdbReturnsByte := by
  refine ⟨encodedAs_of_ne_rdreg (op := .rdb) (by decide), fun sel idx s hinv => ?_⟩
  rw [← bufferSizeOf_eq, ← bankOf_eq]
  exact ⟨fun hc => completes_of_trap (exec_nocfg_of_isDataCommand rfl hc),
    fun hc hidx => completes_of_trap (exec_rdb_range hc hidx),
    fun hc hidx => completes_of_done (exec_rdb_reads ⟨hinv, hc⟩ hidx)⟩

/-! ### The decode commands are read-only -/

/-- What R80 allows a decode command to do. -/
def RespondsOrFaults (s t : State) : Prop :=
  (∃ d, OnlyResponds s t d) ∨ Faults s t 2 ∨ Faults s t 5 ∨ Faults s t 7

theorem respondsOrFaults_of_channelQuery {neutral : Prop} [Decidable neutral] {b : BankId} {x y z : BitVec 3} {c : Nat}
    {value : Nat → Nat} {s t : State} (h : channelQuery neutral b x y z c value s = .next t) : RespondsOrFaults s t := by
  rcases channelQuery_next h with ⟨d, rfl⟩ | rfl | rfl
  · exact .inl ⟨d, respond_onlyResponds d s⟩
  · exact .inr (.inl (raiseFault_faults .nocfg s))
  · exact .inr (.inr (.inl (raiseFault_faults .coord s)))

theorem respondsOrFaults_of_rdb {sel : BankSel} {idx : BitVec 11} {s t : State}
    (h : exec (.rdb sel idx) s = .next t) : RespondsOrFaults s t := by
  rcases exec_rdb_next h with ⟨d, rfl⟩ | rfl | rfl
  · exact .inl ⟨d, respond_onlyResponds d s⟩
  · exact .inr (.inl (raiseFault_faults .nocfg s))
  · exact .inr (.inr (.inr (raiseFault_faults .range s)))

/-- Settles O37: a decode command is a query of a channel, or RDB. -/
theorem decodeCommandsAreReadOnly : Obligations.DecodeCommandsAreReadOnly := by
  intro i s t hdecode hexec
  cases i with
  | nop | config | rdreg | wrch | appb | appr | commit | discard | display => cases hdecode
  | rdch sel x y z ch => exact respondsOrFaults_of_channelQuery ((exec_rdch_eq sel x y z ch s).symm.trans hexec)
  | gcb x y z ch => exact respondsOrFaults_of_channelQuery ((exec_gcb_eq x y z ch s).symm.trans hexec)
  | gcs x y z ch => exact respondsOrFaults_of_channelQuery ((exec_gcs_eq x y z ch s).symm.trans hexec)
  | gvb x y z => exact respondsOrFaults_of_channelQuery ((exec_gvb_eq x y z s).symm.trans hexec)
  | gvs x y z => exact respondsOrFaults_of_channelQuery ((exec_gvs_eq x y z s).symm.trans hexec)
  | rdb sel idx => exact respondsOrFaults_of_rdb hexec

end Sys2Proof.Machine
end

section
/-! The encode command WRCH (42_encode.md R81-R83): the words and outcomes of WRCH, the value it packs read back before and
after the swap, and the other channels, which stand at other offsets and so in other bits. -/

namespace Sys2Proof.Machine

/-! ### A channel packed into the write bank -/

/-- The write that WRCH makes (42_encode.md R82): `v` in the bits of one channel of the write bank. -/
def State.pack (s : State) (x y z : BitVec 3) (c v : Nat) : State :=
  s.storeByte s.writeBank (s.chByte x y z c)
    (insertValue (s.byteAt s.writeBank (s.chByte x y z c)) (s.chShift x y z c) s.channelSize v)

section
variable (s : State) (x y z : BitVec 3) (c v : Nat)

@[simp] theorem pack_geom : (s.pack x y z c v).geom = s.geom := storeByte_geom ..
@[simp] theorem pack_status : (s.pack x y z c v).status = s.status := storeByte_status ..
@[simp] theorem pack_responses : (s.pack x y z c v).responses = s.responses := storeByte_responses ..
@[simp] theorem pack_bitOrder : (s.pack x y z c v).bitOrder = s.bitOrder := storeByte_bitOrder ..

theorem byteAt_pack_same :
    (s.pack x y z c v).byteAt s.writeBank (s.chByte x y z c) =
      insertValue (s.byteAt s.writeBank (s.chByte x y z c)) (s.chShift x y z c) s.channelSize v :=
  (byteAt_storeByte ..).trans (if_pos ⟨rfl, rfl⟩)

variable {s x y z c v}

theorem byteAt_pack_other {b : BankId} {i : Nat} (h : ¬ (b = s.writeBank ∧ s.chByte x y z c = i)) :
    (s.pack x y z c v).byteAt b i = s.byteAt b i :=
  (byteAt_storeByte ..).trans (if_neg h)

end

/-- WRCH of a value that fits, at a channel of the geometry inside the cube (42_encode.md R82). -/
theorem exec_wrch_eq_pack {x y z : BitVec 3} {ch : BitVec 2} {value : BitVec 8} {s : State} (hready : s.Ready)
    (hch : ch.toNat < s.channelCount) (hcube : s.InCube x y z) (hv : value.toNat ≤ maxValue s.channelSize) :
    exec (.wrch x y z ch value) s = done 0 (s.pack x y z ch.toNat value.toNat) :=
  exec_wrch_packs hready.2 hch hcube hv (chByte_lt hready.legal hcube hch).2

/-! ### WRCH -/

section
variable {x y z : BitVec 3} {ch : BitVec 2} {value : BitVec 8} {s : State}

theorem exec_wrch_neutral (hc : cfgValidOf s.status = true) (hch : s.channelCount ≤ ch.toNat) :
    exec (.wrch x y z ch value) s = done 0 s :=
  (whenConfigured_of hc).trans (if_pos hch)

theorem exec_wrch_coord (hc : cfgValidOf s.status = true) (hch : ch.toNat < s.channelCount)
    (hcube : ¬ s.InCube x y z) : exec (.wrch x y z ch value) s = trap .coord s := by
  simp only [exec, execWrch, whenConfigured_of hc, if_neg (Nat.not_le.2 hch), whenInRange_of_not hcube]

theorem exec_wrch_value (hc : cfgValidOf s.status = true) (hch : ch.toNat < s.channelCount) (hcube : s.InCube x y z)
    (hv : maxValue s.channelSize < value.toNat) : exec (.wrch x y z ch value) s = trap .value s := by
  simp only [exec, execWrch, whenConfigured_of hc, if_neg (Nat.not_le.2 hch), whenInRange_of hcube, if_pos hv]

end

/-- Settles O9: the outcomes of WRCH in the order of its checks; the byte written has VAL in the channel's bits. -/
theorem wrchPacksValue : Obligations.WrchPacksValue := by
  refine ⟨encodedAs_of_ne_rdreg (op := .wrch) (by decide), fun x y z ch value s hinv => ?_⟩
  rw [← chByte_eq, ← chShift_eq, ← writeBank_eq]
  refine ⟨fun hc => ?nocfg, fun hc hch => ?neutral, fun hc hch hcube => ?coord, fun hc hch hcube hv => ?value,
    fun hc hch hcube hv => ⟨_, exec_wrch_eq_pack ⟨hinv, hc⟩ hch hcube hv, ?responds, fun j => ?bits, ?others, ?geom,
      ?status, ?env⟩⟩
  case nocfg => exact completes_of_trap (exec_nocfg_of_isDataCommand rfl hc)
  case neutral => exact completes_of_done (exec_wrch_neutral hc hch)
  case coord => exact completes_of_trap (exec_wrch_coord hc hch hcube)
  case value => exact completes_of_trap (exec_wrch_value hc hch hcube hv)
  case responds => rw [Responds, respond_responses, pack_responses]
  case bits =>
    have hfits := chShift_add_size_le (State.Ready.legal ⟨hinv, hc⟩) x y z ch.toNat
    rw [byteAt_respond, byteAt_pack_same, getLsbD_insertValue _ hfits (le_maxValue_iff.1 hv)]
    rfl
  case others => exact sameBanksBut_storeByte s _ _ _
  case geom => exact pack_geom ..
  case status => exact pack_status ..
  case env => exact (exec_effect (exec_wrch_eq_pack ⟨hinv, hc⟩ hch hcube hv)).sameEnv

/-! ### Raw values -/

theorem chByte_congr {s t : State} (hgeom : t.geom = s.geom) (x y z : BitVec 3) (c : Nat) :
    t.chByte x y z c = s.chByte x y z c := by
  rw [State.chByte, State.chByte, hgeom]

theorem chShift_congr {s t : State} (hgeom : t.geom = s.geom) (horder : t.bitOrder = s.bitOrder) (x y z : BitVec 3)
    (c : Nat) : t.chShift x y z c = s.chShift x y z c := by
  rw [State.chShift, State.chShift, hgeom, horder]

/-- The raw value of a channel depends on the geometry, the bit order and the channel's byte alone (41_decode.md R70). -/
theorem rawAt_congr {s t : State} {b b' : BankId} {x y z : BitVec 3} {c : Nat} (hgeom : t.geom = s.geom)
    (horder : t.bitOrder = s.bitOrder) (hbyte : t.byteAt b' (s.chByte x y z c) = s.byteAt b (s.chByte x y z c)) :
    t.rawAt b' x y z c = s.rawAt b x y z c := by
  rw [State.rawAt, State.rawAt, chByte_congr hgeom, chShift_congr hgeom horder, hbyte, State.channelSize, hgeom]

@[simp] theorem rawAt_respond (d : Word) (s : State) (b : BankId) (x y z : BitVec 3) (c : Nat) :
    (respond d s).rawAt b x y z c = s.rawAt b x y z c := rawAt_congr rfl rfl (byteAt_respond d s b _)

@[simp] theorem rawAt_raiseFault (k : FaultCode) (s : State) (b : BankId) (x y z : BitVec 3) (c : Nat) :
    (raiseFault k s).rawAt b x y z c = s.rawAt b x y z c := rawAt_congr rfl rfl (byteAt_raiseFault k s b _)

@[simp] theorem rawAt_withStatus (s : State) (w : Word) (b : BankId) (x y z : BitVec 3) (c : Nat) :
    (s.withStatus w).rawAt b x y z c = s.rawAt b x y z c := rawAt_congr rfl rfl (byteAt_withStatus s w b _)

/-- A channel that lies in the byte packed is extracted from the new byte. -/
theorem rawAt_pack_of_same_byte {s : State} {x y z x' y' z' : BitVec 3} {c c' : Nat} (v : Nat)
    (hbyte : s.chByte x' y' z' c' = s.chByte x y z c) :
    (s.pack x y z c v).rawAt s.writeBank x' y' z' c' =
      extractValue (insertValue (s.byteAt s.writeBank (s.chByte x y z c)) (s.chShift x y z c) s.channelSize v)
        (s.chShift x' y' z' c') s.channelSize := by
  have hgeom := pack_geom s x y z c v
  have hsize : (s.pack x y z c v).channelSize = s.channelSize := congrArg channelSizeOf hgeom
  rw [State.rawAt, chByte_congr hgeom, hbyte, byteAt_pack_same, chShift_congr hgeom (pack_bitOrder ..), hsize]

/-! ### The value read back -/

/-- The value packed into a channel of the write bank is its raw value there (42_encode.md R83). -/
theorem rawAt_pack_same {s : State} (hlegal : legalWord s.geom = true) (x y z : BitVec 3) (c : Nat) {v : Nat}
    (hv : v ≤ maxValue s.channelSize) : (s.pack x y z c v).rawAt s.writeBank x y z c = v :=
  (rawAt_pack_of_same_byte v rfl).trans
    (extractValue_insertValue _ (chShift_add_size_le hlegal x y z c) (le_maxValue_iff.1 hv))

/-- RDCH responds with the value that its bank holds for the channel. -/
theorem completes_rdch_of_rawAt {s : State} {sel : BankSel} {x y z : BitVec 3} {ch : BitVec 2} {v : BitVec 8}
    (hready : s.Ready) (hcube : s.InCube x y z) (hch : ch.toNat < s.channelCount)
    (hraw : s.rawAt (s.bankOf sel) x y z ch.toNat = v.toNat) :
    Completes (.rdch sel x y z ch) s fun t => OnlyResponds s t (v.setWidth 32) := by
  refine completes_of_done ?_
  rw [exec_rdch_eq, channelQuery_reads hready (Nat.not_le.2 hch) hcube hch, ← rawAt_eq, hraw, id, dataWord,
    BitVec.ofNat_toNat]

/-- With DISP_SEL inverted, the write bank has become the display bank (10_state.md R22). -/
theorem displayBank_of_inverted {s t : State} (h : dispSelOf t.status = !dispSelOf s.status) :
    t.displayBank = s.writeBank := by
  rw [State.displayBank, State.writeBank, h]
  cases dispSelOf s.status <;> rfl

/-- A DISPLAY of a full frame responds 1 and displays the raw values of the write bank (44_swap.md R90). -/
theorem State.Ready.display_swaps {s : State} (h : s.Ready) (hfull : s.stride = s.bufferSize) :
    ∃ t, exec .display s = .next t ∧ Responds s t 1 ∧ t.Ready ∧ t.geom = s.geom ∧
      ∀ x y z c, t.rawAt t.displayBank x y z c = s.rawAt s.writeBank x y z c := by
  have hexec := exec_display_swaps h.2 hfull
  refine ⟨_, hexec, rfl, h.after_exec hexec, rfl, fun x y z c => ?_⟩
  rw [displayBank_of_inverted (dispSel_of_full_display h.2 hfull hexec), rawAt_respond, rawAt_withStatus]

/-- After a WRCH that packs its value, the write bank holds the value; GEOM and STATE are as before (42_encode.md R82). -/
theorem State.Ready.wrch_packs {s : State} (h : s.Ready) {x y z : BitVec 3} {ch : BitVec 2} {v : BitVec 8}
    (hch : ch.toNat < s.channelCount) (hcube : s.InCube x y z) (hv : v.toNat ≤ maxValue s.channelSize) :
    ∃ t, exec (.wrch x y z ch v) s = .next t ∧ t.Ready ∧ t.geom = s.geom ∧ t.status = s.status ∧
      t.rawAt t.writeBank x y z ch.toNat = v.toNat := by
  have hexec := exec_wrch_eq_pack h hch hcube hv
  have hstatus := pack_status s x y z ch.toNat v.toNat
  refine ⟨_, hexec, h.after_exec hexec, pack_geom .., hstatus, ?_⟩
  rw [rawAt_respond, writeBank_congr (t := respond 0 _) hstatus, rawAt_pack_same h.legal x y z ch.toNat hv]

/-- Settles O48: the value packed is the raw value in the write bank, and the swap displays that bank as it stands. -/
theorem wrchThenRdchReturnsValue : Obligations.WrchThenRdchReturnsValue := by
  intro x y z ch v s hready hcube hch hv
  obtain ⟨t, hwrch, ht, hgeom, hstatus, hraw⟩ := hready.wrch_packs hch hcube hv
  rw [State.InCube, ← hgeom] at hcube
  rw [← hgeom] at hch
  refine ⟨t, hwrch, completes_rdch_of_rawAt ht hcube hch hraw, fun hfull => ?_⟩
  rw [State.stride, ← bufferSizeOf_eq, ← hgeom, ← hstatus] at hfull
  obtain ⟨u, hdisplay, hresponds, hu, hgeom', hraw'⟩ := ht.display_swaps hfull
  rw [← hgeom'] at hcube hch
  exact ⟨u, hdisplay, hresponds, completes_rdch_of_rawAt hu hcube hch ((hraw' x y z ch.toNat).trans hraw)⟩

/-! ### The other channels -/

/-- A number below `n` and the multiple of `n` it is added to are determined by the sum. -/
theorem mul_add_inj_of_lt {n a b r q : Nat} (hr : r < n) (hq : q < n) (h : a * n + r = b * n + q) : a = b ∧ r = q := by
  have hmod : r = q := by
    have hrem := congrArg (· % n) h
    simpa [Nat.mul_add_mod', Nat.mod_eq_of_lt hr, Nat.mod_eq_of_lt hq] using hrem
  subst hmod
  exact ⟨Nat.eq_of_mul_eq_mul_right (Nat.zero_lt_of_lt hr) (Nat.add_right_cancel h), rfl⟩

/-- The bit offset as a number whose digits are z, y, x and the channel (20_memory.md R34, R35). -/
theorem specOffset_eq_digits (side count size x y z c : Nat) :
    specOffset side count size x y z c = (((z * side + y) * side + x) * count + c) * size := by
  unfold specOffset
  ring

/-- Two channels of the cube at one offset are one channel. -/
theorem specOffset_inj {side count size x y z c x' y' z' c' : Nat} (hsize : 0 < size) (hx : x < side) (hx' : x' < side)
    (hy : y < side) (hy' : y' < side) (hc : c < count) (hc' : c' < count)
    (h : specOffset side count size x y z c = specOffset side count size x' y' z' c') :
    x = x' ∧ y = y' ∧ z = z' ∧ c = c' := by
  rw [specOffset_eq_digits, specOffset_eq_digits] at h
  obtain ⟨hvoxel, rfl⟩ := mul_add_inj_of_lt hc hc' (Nat.eq_of_mul_eq_mul_right hsize h)
  obtain ⟨hrow, rfl⟩ := mul_add_inj_of_lt hx hx' hvoxel
  obtain ⟨rfl, rfl⟩ := mul_add_inj_of_lt hy hy' hrow
  exact ⟨rfl, rfl, rfl, rfl⟩

/-- Two different multiples of a size are at least the size apart. -/
theorem add_le_or_add_le_of_dvd {size o o' : Nat} (ho : size ∣ o) (ho' : size ∣ o') (hne : o ≠ o') :
    o + size ≤ o' ∨ o' + size ≤ o := by
  rcases Nat.lt_or_gt_of_ne hne with hlt | hgt
  · have := Nat.le_of_dvd (Nat.sub_pos_of_lt hlt) (Nat.dvd_sub ho' ho)
    omega
  · have := Nat.le_of_dvd (Nat.sub_pos_of_lt hgt) (Nat.dvd_sub ho ho')
    omega

/-- Two channels of one byte at different offsets have no bit in common, in either bit order (20_memory.md R37). -/
theorem specShift_apart (order : Config.BitOrder) {size o o' : Nat} (hsize : size = 1 ∨ size = 2 ∨ size = 4 ∨ size = 8)
    (ho : size ∣ o) (ho' : size ∣ o') (hne : o ≠ o') (hbyte : o / 8 = o' / 8) :
    specShift order size o' + size ≤ specShift order size o ∨ specShift order size o + size ≤ specShift order size o' := by
  have hgap := add_le_or_add_le_of_dvd ho ho' hne
  have hend := mod_add_size_le hsize ho
  have hend' := mod_add_size_le hsize ho'
  cases order <;> simp only [specShift] <;> omega

/-- Different channels of the cube that share a byte have no bit in common. -/
theorem State.Ready.chShift_apart {s : State} (h : s.Ready) {x y z x' y' z' : BitVec 3} {ch ch' : BitVec 2}
    (hcube : s.InCube x y z) (hcube' : s.InCube x' y' z') (hch : ch.toNat < s.channelCount)
    (hch' : ch'.toNat < s.channelCount) (hne : (x, y, z, ch) ≠ (x', y', z', ch'))
    (hbyte : s.chByte x y z ch.toNat = s.chByte x' y' z' ch'.toNat) :
    s.chShift x' y' z' ch'.toNat + s.channelSize ≤ s.chShift x y z ch.toNat ∨
      s.chShift x y z ch.toNat + s.channelSize ≤ s.chShift x' y' z' ch'.toNat := by
  obtain ⟨-, -, hsize⟩ := (legalGeom_iff _ _ _).1 h.legal
  obtain ⟨hx, hy, -⟩ := hcube
  obtain ⟨hx', hy', -⟩ := hcube'
  rw [chShift_eq, chShift_eq]
  rw [chByte_eq, chByte_eq] at hbyte
  refine specShift_apart _ hsize (dvd_specOffset ..) (dvd_specOffset ..) (fun hoffset => hne ?_) hbyte
  obtain ⟨hxx, hyy, hzz, hcc⟩ := specOffset_inj (by omega) hx hx' hy hy' hch hch' hoffset
  rw [BitVec.eq_of_toNat_eq hxx, BitVec.eq_of_toNat_eq hyy, BitVec.eq_of_toNat_eq hzz, BitVec.eq_of_toNat_eq hcc]

/-- Settles O49: another channel lies in another byte, or in other bits of the byte packed. -/
theorem wrchLeavesOtherChannels : Obligations.WrchLeavesOtherChannels := by
  intro x y z x' y' z' ch ch' v s t hready hcube hcube' hch hch' hne hexec b
  rw [← rawAt_eq, ← rawAt_eq]
  cases exec_effect hexec with
  | responded => exact rawAt_respond ..
  | faulted => exact rawAt_raiseFault ..
  | packed _ _ _ _ _ _ _ _ hv =>
    refine (rawAt_respond 0 (s.pack x y z ch.toNat v.toNat) b x' y' z' ch'.toNat).trans ?_
    by_cases hbyte : b = s.writeBank ∧ s.chByte x y z ch.toNat = s.chByte x' y' z' ch'.toNat
    · obtain ⟨rfl, hbyte⟩ := hbyte
      rw [rawAt_pack_of_same_byte v.toNat hbyte.symm, extractValue_insertValue_apart _
        (chShift_add_size_le hready.legal x y z ch.toNat) (le_maxValue_iff.1 hv)
        (hready.chShift_apart hcube hcube' hch hch' hne hbyte), hbyte, State.rawAt]
    · exact rawAt_congr (pack_geom ..) (pack_bitOrder ..) (byteAt_pack_other hbyte)

end Sys2Proof.Machine
end

section
/-! Frame assembly (43_assembly.md R84-R89): APPB and APPR both append a run of copies of one byte at STRIDE + PENDING;
COMMIT and DISCARD move the cursor alone; a chunk is a list of appends, and appends compose. -/

namespace Sys2Proof.Machine

/-! ### A run appended to the write bank -/

/-- `n` copies of `v` written from STRIDE + PENDING on and counted in PENDING (43_assembly.md R84, R85). -/
def State.appendRun (s : State) (v : Byte) (n : Nat) : State :=
  (s.storeBytes s.writeBank s.appendIndex v n).withStatus (setPending s.status (s.pending + n))

section
variable (s : State) (v : Byte) (n : Nat)

@[simp] theorem appendRun_geom : (s.appendRun v n).geom = s.geom := storeBytes_geom ..
@[simp] theorem appendRun_status : (s.appendRun v n).status = setPending s.status (s.pending + n) := rfl
@[simp] theorem appendRun_port : (s.appendRun v n).port = s.port := storeBytes_port ..
@[simp] theorem appendRun_responses : (s.appendRun v n).responses = s.responses := storeBytes_responses ..
@[simp] theorem appendRun_bitOrder : (s.appendRun v n).bitOrder = s.bitOrder := storeBytes_bitOrder ..
@[simp] theorem appendRun_draw : (s.appendRun v n).draw = s.draw := storeBytes_draw ..

@[simp] theorem appendRun_writeBank : (s.appendRun v n).writeBank = s.writeBank := by
  rw [State.writeBank, State.writeBank, appendRun_status, dispSelOf_setPending]

theorem appendRun_cells : (s.appendRun v n).cells s.writeBank = storeRun (s.cells s.writeBank) s.appendIndex v n := by
  rw [State.appendRun, cells_withStatus, State.storeBytes, cells_withCells_same]

theorem byteAt_appendRun (b : BankId) (j : Nat) :
    (s.appendRun v n).byteAt b j =
      if b = s.writeBank ∧ s.appendIndex ≤ j ∧ j < s.appendIndex + n then v else s.byteAt b j :=
  (byteAt_withStatus ..).trans (byteAt_storeBytes ..)

/-- PENDING is a field of 11 bits, so it grows by `n` at most (assumption log 8). -/
theorem appendRun_appendIndex_le : (s.appendRun v n).appendIndex ≤ s.appendIndex + n := by
  have hmod := Nat.mod_le (s.pending + n) 2048
  simp only [State.appendIndex, State.stride, State.pending, appendRun_status, strideOf_setPending,
    pendingOf_setPending] at hmod ⊢
  omega

end

theorem exec_appb_eq_appendRun {byte : BitVec 8} {s : State} (hready : s.Ready) (hroom : s.appendIndex < s.bufferSize) :
    exec (.appb byte) s = done 1 (s.appendRun byte 1) :=
  exec_appb_appends hready.2 hroom (hroom.trans_le hready.size.2)

theorem exec_appr_eq_appendRun {byte run : BitVec 8} {s : State} (hready : s.Ready) :
    exec (.appr byte run) s = done (dataWord (s.runLength run)) (s.appendRun byte (s.runLength run)) :=
  exec_appr_runs hready.2 (.inr (hready.run_le run).2)

/-! ### Every assembled byte has been written -/

/-- The assembly stays written when the cursor does not rise and no cell of the write bank is unlisted. -/
theorem State.Assembled.of_le {s t : State} (h : s.Assembled) (hle : t.appendIndex ≤ s.appendIndex)
    (hcells : ∀ i, (lookup (s.cells s.writeBank) i).isSome = true →
      (lookup (t.cells t.writeBank) i).isSome = true) : t.Assembled := fun i hi => hcells i (h i (hi.trans_le hle))

/-- A cleared cursor has no byte below it. -/
theorem assembled_of_appendIndex_eq_zero {s : State} (h : s.appendIndex = 0) : s.Assembled :=
  fun _ hi => absurd (hi.trans_eq h) (Nat.not_lt_zero _)

/-- The bytes that an append counts in PENDING are the bytes it writes. -/
theorem State.Assembled.after_appendRun {s : State} (h : s.Assembled) (v : Byte) (n : Nat) :
    (s.appendRun v n).Assembled := by
  intro i hi
  have hle := hi.trans_le (appendRun_appendIndex_le s v n)
  rw [appendRun_writeBank, appendRun_cells, lookup_storeRun]
  split
  · rfl
  · exact h i (by omega)

/-- A packed byte is one more cell of the write bank. -/
theorem State.Assembled.after_storeByte {s : State} (h : s.Assembled) (i : Nat) (v : Byte) :
    (s.storeByte s.writeBank i v).Assembled := by
  refine h.of_le (by simp) fun j hj => ?_
  rw [writeBank_congr (storeByte_status ..), State.storeByte, cells_withCells_same]
  exact isSome_lookup_store _ i v j hj

/-- A new STATE word that selects the same banks keeps the assembly written when its cursor does not rise. -/
theorem State.Assembled.after_withStatus {s : State} (h : s.Assembled) {w : Word}
    (hsel : dispSelOf w = dispSelOf s.status) (hle : strideOf w + pendingOf w ≤ s.appendIndex) :
    (s.withStatus w).Assembled := by
  refine h.of_le hle fun i hi => ?_
  rwa [cells_withStatus, writeBank_withStatus, hsel]

/-- No command counts in STRIDE + PENDING a byte of the write bank that is not written (44_swap.md R92). -/
theorem Effect.keepsAssembled {s t : State} {i : Instr} (h : Effect s i t) (hs : s.Assembled) : t.Assembled := by
  have hdropped : (s.withStatus (setPending s.status 0)).Assembled := hs.after_withStatus (by simp) (by simp)
  cases h with
  | responded => exact hs
  | faulted i c => exact hs.after_withStatus (w := setSticky s.status c) (by simp) (by simp)
  | configured => exact hs.after_withStatus (w := setCfgValid s.status true) (by simp) (by simp)
  | packed => exact hs.after_storeByte _ _
  | appended byte => exact hs.after_appendRun byte 1
  | ran byte run => exact hs.after_appendRun byte (s.runLength run)
  | committed => exact hs.after_withStatus (by simp) (by simpa using Nat.mod_le _ 2048)
  | notCommitted | discarded => exact hdropped
  | displayed | notDisplayed => exact assembled_of_appendIndex_eq_zero (by simp)

/-- Settles O28, by the three things a step can be: idle, a word, which has the effect of some command, or a reset. -/
theorem everyStepKeepsAssembled : Obligations.EveryStepKeepsAssembled := by
  intro s t _ hs hstep
  cases hport : s.port with
  | nil =>
    cases (step_idle hport).symm.trans hstep
    exact hs
  | cons e rest =>
    rw [step_event hport] at hstep
    cases e with
    | command w =>
      obtain ⟨_, heffect⟩ := executeWord_effect hstep
      exact heffect.keepsAssembled hs
    | reset =>
      cases hstep
      exact assembled_of_appendIndex_eq_zero (by simp)

/-! ### The frame of a new PENDING -/

theorem sameStatusBut_setPending {s t : State} {n : Nat} (h : t.status = setPending s.status n) :
    SameStatusBut 11 11 s t := by
  intro i hi
  rw [h, getLsbD_setPending, if_neg (by omega)]

/-- A command that only drops PENDING and responds 0 (43_assembly.md R87, R88). -/
theorem completes_of_pending_dropped {i : Instr} {s : State}
    (h : exec i s = done 0 (s.withStatus (setPending s.status 0))) :
    Completes i s fun t => Responds s t 0 ∧ t.pending = 0 ∧ SameStatusBut 11 11 s t ∧ SameBanks s t ∧
      t.geom = s.geom ∧ SameEnv s t :=
  ⟨_, h, rfl, pendingOf_setPending .., sameStatusBut_setPending rfl,
    fun _ _ => (byteAt_respond ..).trans (byteAt_withStatus ..), rfl,
    ⟨rfl, rfl, rfl⟩⟩

/-! ### DISCARD and COMMIT -/

/-- Settles O14: DISCARD writes a PENDING of 0 and nothing else. -/
theorem discardDropsPending : Obligations.DiscardDropsPending :=
  ⟨encodedAs_of_ne_rdreg (op := .discard) (by decide), fun _ =>
    ⟨fun hc => completes_of_trap (exec_nocfg_of_isDataCommand rfl hc),
      fun hc => completes_of_pending_dropped (exec_discard_drops hc)⟩⟩

/-- Settles O13: a sum that fits the frame fits the field STRIDE, and in a state that meets the invariant it does. -/
theorem commitAddsPending : Obligations.CommitAddsPending := by
  refine ⟨encodedAs_of_ne_rdreg (op := .commit) (by decide), fun s => ?_⟩
  rw [← bufferSizeOf_eq]
  refine ⟨fun hc => ?nocfg, fun hc hfit hsize => ⟨_, exec_commit_fits hc hfit, rfl, ?stride, ?pending,
    fun j hj => ?status, fun b j => ?banks, rfl, ⟨rfl, rfl, rfl⟩⟩, fun hc hover => ?unfit, fun hready => ?ready⟩
  case nocfg => exact completes_of_trap (exec_nocfg_of_isDataCommand rfl hc)
  case stride =>
    have hmod : (s.stride + s.pending) % 2048 = s.stride + s.pending := Nat.mod_eq_of_lt (by omega)
    simpa using hmod
  case pending => exact pendingOf_setPending ..
  case status =>
    rw [respond_status, withStatus_status, getLsbD_setPending, if_neg (by omega), getLsbD_setStride, if_neg (by omega)]
  case banks => exact (byteAt_respond ..).trans (byteAt_withStatus ..)
  case unfit => exact completes_of_pending_dropped (exec_commit_not_fits hc hover)
  case ready =>
    have hexec := exec_commit_fits hready.2 hready.cursor
    obtain ⟨hstride, hpending⟩ := hready.commit_cursor hexec
    exact ⟨_, hexec, rfl, hstride, hpending⟩

/-! ### Appends -/

/-- The clauses of an append, with the number of bytes that fit named. -/
theorem appends_of_count {s t : State} {bytes : List Byte} {k : Nat}
    (hk : min bytes.length (s.bufferSize - s.appendIndex) = k) (hpending : t.pending = s.pending + k)
    (hwritten : ∀ j < k, t.byteAt s.writeBank (s.appendIndex + j) = bytes.getD j 0)
    (hothers : SameBanksBut s.writeBank s.appendIndex k s t) (hstatus : SameStatusBut 11 11 s t)
    (hgeom : t.geom = s.geom) (henv : SameEnv s t) : Appends s t bytes := by
  subst hk
  exact ⟨hpending, hwritten, hothers, hstatus, hgeom, henv⟩

/-- An append of as many copies of `v` as fit, out of `n`. -/
theorem State.Ready.appends_appendRun {s : State} (h : s.Ready) (d : Word) (v : Byte) {n k : Nat}
    (hk : min n (s.bufferSize - s.appendIndex) = k) :
    Appends s (respond d (s.appendRun v k)) (List.replicate n v) := by
  have hcursor := h.cursor
  refine appends_of_count (by rwa [List.length_replicate]) (h.pending_fits ?fits) (fun j hj => ?written)
    (fun b j hout => ?others) (sameStatusBut_setPending rfl) (appendRun_geom ..) (by constructor <;> simp)
  case fits =>
    rw [State.appendIndex] at hk hcursor
    omega
  case written =>
    rw [byteAt_respond, byteAt_appendRun, if_pos ⟨rfl, by omega, by omega⟩, List.getD_replicate _ (by omega)]
  case others => rw [byteAt_respond, byteAt_appendRun, if_neg hout]

/-- A response with the write bank full appends none of the bytes offered. -/
theorem OnlyResponds.appends_of_full {s t : State} {d : Word} (h : OnlyResponds s t d)
    (hfull : s.bufferSize ≤ s.appendIndex) (bytes : List Byte) : Appends s t bytes :=
  appends_of_count (k := 0) (by omega) (congrArg pendingOf h.status) (fun j hj => absurd hj (Nat.not_lt_zero j))
    (fun b j _ => h.banks b j) (fun j _ => by rw [h.status]) h.geom h.env

/-- APPB with room left appends its byte (43_assembly.md R84). -/
theorem State.Ready.appb_appends {s : State} (h : s.Ready) (byte : BitVec 8) (hroom : s.appendIndex < s.bufferSize) :
    Completes (.appb byte) s fun t => Responds s t 1 ∧ Appends s t [byte] :=
  ⟨_, exec_appb_eq_appendRun h hroom, by rw [Responds, respond_responses, appendRun_responses],
    h.appends_appendRun 1 byte (n := 1) (by omega)⟩

theorem State.Ready.appb_full {s : State} (h : s.Ready) (byte : BitVec 8) (hfull : s.bufferSize ≤ s.appendIndex) :
    Completes (.appb byte) s fun t => OnlyResponds s t 0 := completes_of_done (exec_appb_full h.2 hfull)

/-- APPR appends its run (43_assembly.md R85). -/
theorem State.Ready.appr_appends {s : State} (h : s.Ready) (byte run : BitVec 8) :
    Completes (.appr byte run) s fun t =>
      Responds s t (dataWord (s.runLength run)) ∧ Appends s t (List.replicate run.toNat byte) :=
  ⟨_, exec_appr_eq_appendRun h, by rw [Responds, respond_responses, appendRun_responses],
    h.appends_appendRun _ byte rfl⟩

/-- Settles O11: with room left APPB appends one byte; with the write bank full it only responds. -/
theorem appbAppendsByte : Obligations.AppbAppendsByte := by
  refine ⟨encodedAs_of_ne_rdreg (op := .appb) (by decide), fun byte s hinv => ?_⟩
  rw [← bufferSizeOf_eq, ← writeBank_eq]
  refine ⟨fun hc => ?nocfg, fun hc hroom => ?room, fun hc hfull => ?full⟩
  case nocfg => exact completes_of_trap (exec_nocfg_of_isDataCommand rfl hc)
  case room =>
    have hfits : s.appendIndex < s.bufferSize := hroom
    obtain ⟨t, hexec, hresponds, happends⟩ := State.Ready.appb_appends ⟨hinv, hc⟩ byte hfits
    have hone : min [byte].length (s.bufferSize - s.appendIndex) = 1 := by
      rw [List.length_singleton]
      omega
    obtain ⟨hpending, hwritten, hothers, hstatus, hgeom, henv⟩ := happends
    rw [hone] at hpending hwritten hothers
    exact ⟨t, hexec, hresponds, hwritten 0 Nat.one_pos, hothers, hpending, hstatus, hgeom, henv⟩
  case full => exact State.Ready.appb_full ⟨hinv, hc⟩ byte hfull

/-- Settles O12: APPR appends a list of RUN copies. -/
theorem apprAppendsRun : Obligations.ApprAppendsRun := by
  refine ⟨encodedAs_of_ne_rdreg (op := .appr) (by decide), fun byte run s hinv => ?_⟩
  rw [← bufferSizeOf_eq, ← writeBank_eq]
  refine ⟨fun hc => ?nocfg, fun hc => ?runs⟩
  case nocfg => exact completes_of_trap (exec_nocfg_of_isDataCommand rfl hc)
  case runs =>
    obtain ⟨t, hexec, hresponds, happends⟩ := State.Ready.appr_appends ⟨hinv, hc⟩ byte run
    obtain ⟨hpending, hwritten, hothers, hstatus, hgeom, henv⟩ := happends
    rw [List.length_replicate] at hpending hwritten hothers
    refine ⟨t, hexec, _, rfl, hresponds, fun j hj => ?_, hothers, hpending, hstatus, hgeom, henv⟩
    exact (hwritten j hj).trans (List.getD_replicate _ (hj.trans_le (Nat.min_le_left _ _)))

/-! ### Appends compose -/

section
variable {s t : State} {xs : List Byte} (h : Appends s t xs)
include h

theorem Appends.stride : t.stride = s.stride := by
  refine congrArg BitVec.toNat (BitVec.eq_of_getLsbD_eq fun j hj => ?_)
  rw [BitVec.getLsbD_extractLsb', BitVec.getLsbD_extractLsb', h.status _ (by omega)]

theorem Appends.writeBank : t.writeBank = s.writeBank := by
  rw [State.writeBank, State.writeBank, dispSelOf, dispSelOf, h.status 22 (by omega)]

theorem Appends.bufferSize : t.bufferSize = s.bufferSize := congrArg bufferSizeOf h.geom

theorem Appends.appendIndex :
    t.appendIndex = s.appendIndex + min xs.length (s.bufferSize - s.appendIndex) := by
  rw [State.appendIndex, h.stride, h.pending, Nat.add_assoc]

end

theorem SameEnv.trans {s t u : State} (hst : SameEnv s t) (htu : SameEnv t u) : SameEnv s u :=
  ⟨htu.port.trans hst.port, htu.bitOrder.trans hst.bitOrder, htu.draw.trans hst.draw⟩

/-- Nothing appended. -/
theorem Appends.nil (s : State) : Appends s s [] where
  pending := by simp
  written := by simp
  others := fun _ _ _ => rfl
  status := fun _ _ => rfl
  geom := rfl
  env := ⟨rfl, rfl, rfl⟩

/-- One append after another appends the bytes of both in order: the second starts where the first ended, and has room
only when all bytes of the first fitted. -/
theorem Appends.trans {s t u : State} {xs ys : List Byte} (hst : Appends s t xs) (htu : Appends t u ys) :
    Appends s u (xs ++ ys) := by
  obtain ⟨hpending, hwritten, hothers, hstatus, hgeom, henv⟩ := htu
  rw [hst.bufferSize, hst.appendIndex] at hpending hwritten hothers
  rw [hst.writeBank] at hwritten hothers
  have hsplit : min (xs ++ ys).length (s.bufferSize - s.appendIndex) =
      min xs.length (s.bufferSize - s.appendIndex) +
        min ys.length (s.bufferSize - (s.appendIndex + min xs.length (s.bufferSize - s.appendIndex))) := by
    rw [List.length_append]
    omega
  refine ⟨?pending, fun j hj => ?written, fun b i hout => ?others, fun i hi => (hstatus i hi).trans (hst.status i hi),
    hgeom.trans hst.geom, hst.env.trans henv⟩
  case pending => rw [hpending, hst.pending, hsplit, Nat.add_assoc]
  case written =>
    by_cases hfirst : j < min xs.length (s.bufferSize - s.appendIndex)
    · rw [hothers _ _ (by omega), hst.written j hfirst, List.getD_append _ _ _ _ (by omega)]
    · have hfull : min xs.length (s.bufferSize - s.appendIndex) = xs.length := by omega
      rw [hfull] at hwritten hsplit
      have hsecond := hwritten (j - xs.length) (by omega)
      have hplace : s.appendIndex + xs.length + (j - xs.length) = s.appendIndex + j := by omega
      rw [List.getD_append_right _ _ _ _ (by omega), ← hsecond, hplace]
  case others =>
    rw [hsplit] at hout
    rw [hothers b i fun ⟨hb, hlo, hhi⟩ => hout ⟨hb, by omega, by omega⟩,
      hst.others b i fun ⟨hb, hlo, hhi⟩ => hout ⟨hb, hlo, by omega⟩]

/-! ### Chunks -/

theorem runInstrs_cons {i : Instr} {is : List Instr} {s t : State} (h : exec i s = .next t) :
    runInstrs (i :: is) s = runInstrs is t := by
  simp only [runInstrs, h]

/-- APPB appends its byte as far as it fits. -/
theorem State.Ready.appb_appends_truncated {s : State} (h : s.Ready) (byte : BitVec 8) :
    Completes (.appb byte) s fun t => Appends s t [byte] := by
  by_cases hroom : s.appendIndex < s.bufferSize
  · obtain ⟨t, hexec, -, happends⟩ := h.appb_appends byte hroom
    exact ⟨t, hexec, happends⟩
  · have hfull := Nat.le_of_not_lt hroom
    obtain ⟨t, hexec, honly⟩ := h.appb_full byte hfull
    exact ⟨t, hexec, honly.appends_of_full hfull _⟩

/-- A list of commands that each append some bytes appends all these bytes in order. -/
theorem State.Ready.runInstrs_appends {α : Type} {command : α → Instr} {bytes : α → List Byte}
    (hcommand : ∀ a (s : State), s.Ready → Completes (command a) s fun t => Appends s t (bytes a)) (as : List α)
    {s : State} (h : s.Ready) :
    ∃ t, runInstrs (as.map command) s = .next t ∧ Appends s t (as.flatMap bytes) := by
  induction as generalizing s with
  | nil => exact ⟨s, rfl, Appends.nil s⟩
  | cons a as ih =>
    obtain ⟨t, hexec, hfirst⟩ := hcommand a s h
    obtain ⟨u, hrun, hrest⟩ := ih (h.after_exec hexec)
    exact ⟨u, (runInstrs_cons hexec).trans hrun, hfirst.trans hrest⟩

/-- Settles O43: RAW8 is a list of APPBs and RLE4 a list of APPRs. -/
theorem chunksAppendTheirBytes : Obligations.ChunksAppendTheirBytes := by
  refine fun s hready => ⟨fun p => ?raw, fun p => ?compressed⟩
  case raw =>
    have hchunk := hready.runInstrs_appends (fun byte t ht => ht.appb_appends_truncated byte) p.bytes.toList
    rwa [List.flatMap_singleton'] at hchunk
  case compressed =>
    refine hready.runInstrs_appends (fun q t ht => ?_) p.pairs.toList
    obtain ⟨u, hexec, -, happends⟩ := ht.appr_appends q.1 q.2
    exact ⟨u, hexec, happends⟩

end Sys2Proof.Machine
end

section
/-! The buffer swap (44_swap.md R90-R92): DISPLAY writes STATE alone, so a swap exchanges the roles of two banks that
stay as they are; no command writes the bank on display, and a swap publishes a frame of bytes that were all written. -/

namespace Sys2Proof.Machine

/-! ### DISPLAY -/

/-- A new STATE word and a response leave GEOM, every bank byte and the environment (44_swap.md R90). -/
theorem respond_withStatus_frame (d w : Word) (s : State) :
    SameBanks s (respond d (s.withStatus w)) ∧ (respond d (s.withStatus w)).geom = s.geom ∧
      SameEnv s (respond d (s.withStatus w)) :=
  ⟨fun _ _ => (byteAt_respond ..).trans (byteAt_withStatus ..), rfl, ⟨rfl, rfl, rfl⟩⟩

/-- Settles O15: both outcomes clear the cursor and leave the bits above it, but for the DISP_SEL of the first. -/
theorem displaySwapsFullFrame : Obligations.DisplaySwapsFullFrame := by
  refine ⟨encodedAs_of_ne_rdreg (op := .display) (by decide), fun s => ?_⟩
  rw [← bufferSizeOf_eq]
  refine ⟨fun hc => ?nocfg, fun hc hfull => ?full, fun hc hshort => ?short⟩
  case nocfg => exact completes_of_trap (exec_nocfg_of_isDataCommand rfl hc)
  case full =>
    have hexec := exec_display_swaps hc hfull
    refine ⟨_, hexec, rfl, dispSel_of_full_display hc hfull hexec, strideOf_clearCursor _, pendingOf_clearCursor _,
      fun i hi => ?_, respond_withStatus_frame ..⟩
    rw [respond_status, withStatus_status, getLsbD_clearCursor _ _ (by omega), getLsbD_setDispSel, if_neg (by omega)]
  case short =>
    refine ⟨_, exec_display_fails hc hshort, rfl, strideOf_clearCursor _, pendingOf_clearCursor _, fun i hi => ?_,
      respond_withStatus_frame ..⟩
    exact getLsbD_clearCursor _ _ (by omega)

/-- Settles O40: a DISPLAY that responds 1 is the one that inverts DISP_SEL, and it changes no byte of either bank. -/
theorem swapExchangesTheBanks : Obligations.SwapExchangesTheBanks := by
  intro s t hc hexec hresponds
  obtain ⟨-, hfull, hshort⟩ := displaySwapsFullFrame.2 s
  by_cases hstride : s.stride = specBufferSize s.geom
  · obtain ⟨u, hu, -, hsel, -, -, -, hbanks, -⟩ := hfull hc hstride
    cases hu.symm.trans hexec
    have hdisplay : t.DB = s.WB := by rw [State.DB, State.WB, hsel]
    have hwrite : t.WB = s.DB := by rw [State.WB, State.DB, hsel, Bool.not_not]
    exact ⟨hdisplay, hwrite, fun j => hdisplay ▸ hbanks _ j, fun j => hwrite ▸ hbanks _ j⟩
  · obtain ⟨u, hu, hzero, -⟩ := hshort hc hstride
    cases hu.symm.trans hexec
    cases response_unique hzero hresponds

/-! ### The bank on display -/

/-- No command writes a cell of the bank that is on display when it begins (44_swap.md R91). -/
theorem Effect.keepsDisplayCells {s t : State} {i : Instr} (h : Effect s i t) :
    t.cells s.displayBank = s.cells s.displayBank := by
  cases h with
  | responded | faulted | committed | notCommitted | discarded | displayed | notDisplayed => simp
  | configured => cases s.displayBank <;> rfl
  | packed => exact (cells_respond ..).trans (cells_withCells_other s _ (displayBank_ne_writeBank s))
  | appended | ran =>
    rw [cells_respond, cells_withStatus]
    exact cells_withCells_other s _ (displayBank_ne_writeBank s)

theorem Effect.keepsDisplayBytes {s t : State} {i : Instr} (h : Effect s i t) (j : Nat) :
    t.byteAt s.displayBank j = s.byteAt s.displayBank j :=
  byteAt_congr h.keepsDisplayCells h.sameEnv.draw j

/-- A run that completes is one command and then the rest of the run. -/
theorem runInstrs_cons_next {i : Instr} {is : List Instr} {s t : State} (h : runInstrs (i :: is) s = .next t) :
    ∃ u, exec i s = .next u ∧ runInstrs is u = .next t := by
  unfold runInstrs at h
  split at h
  · exact ⟨_, ‹_›, h⟩
  · cases h
  · cases h

/-- Settles O39, by induction over the run: a command that leaves DISP_SEL leaves the display bank and its bytes. -/
theorem frameStaysUntilNextSwap : Obligations.FrameStaysUntilNextSwap := by
  intro is
  induction is with
  | nil =>
    intro s t hrun _
    cases hrun
    exact ⟨rfl, fun _ => rfl⟩
  | cons i is ih =>
    intro s t hrun hsel
    obtain ⟨u, hexec, hrest⟩ := runInstrs_cons_next hrun
    have hsel_u : u.status.getLsbD 22 = s.status.getLsbD 22 := hsel [i] u ⟨is, rfl⟩ (runInstrs_cons hexec)
    have hbank : u.DB = s.DB := congrArg bankNumbered hsel_u
    have hsel_rest : ∀ pre v, pre <+: is → runInstrs pre u = .next v →
        v.status.getLsbD 22 = u.status.getLsbD 22 := by
      rintro pre v ⟨post, rfl⟩ hv
      exact (hsel (i :: pre) v ⟨post, rfl⟩ ((runInstrs_cons hexec).trans hv)).trans hsel_u.symm
    obtain ⟨hbank_t, hbytes⟩ := ih u t hrest hsel_rest
    refine ⟨hbank_t.trans hbank, fun j => (hbytes j).trans ?_⟩
    rw [hbank]
    exact (exec_effect hexec).keepsDisplayBytes j

/-! ### The published frame -/

/-- The geometry is fixed once the block is configured (10_state.md R23). -/
theorem State.Ready.geom_after_exec {s t : State} {i : Instr} (h : s.Ready) (hexec : exec i s = .next t) :
    t.geom = s.geom := ((geometryFixedUntilReset i s t hexec).1 h.2).1

/-- A swap publishes the bytes below STRIDE, all of them written (44_swap.md R92). -/
theorem State.Assembled.frameWritten_of_swap {s t : State} (h : s.Assembled) (hc : cfgValidOf s.status = true)
    (hfull : s.stride = s.bufferSize) (hexec : exec .display s = .next t) : t.FrameWritten := by
  have hbank := displayBank_of_inverted (dispSel_of_full_display hc hfull hexec)
  cases (exec_display_swaps hc hfull).symm.trans hexec
  intro j hj
  rw [hbank, cells_respond, cells_withStatus]
  exact h j ((hj.trans_eq hfull.symm).trans_le (Nat.le_add_right _ _))

/-- A written frame stays written under a command that does not swap. -/
theorem State.FrameWritten.of_no_swap {s t : State} {i : Instr} (h : s.FrameWritten) (hready : s.Ready)
    (hexec : exec i s = .next t) (hsel : dispSelOf t.status = dispSelOf s.status) : t.FrameWritten := by
  have hbank : t.displayBank = s.displayBank := by rw [State.displayBank, State.displayBank, hsel]
  intro j hj
  rw [hbank, (exec_effect hexec).keepsDisplayCells]
  rw [State.bufferSize, hready.geom_after_exec hexec] at hj
  exact h j hj

/-- Settles O29: the swap publishes what was assembled, and every other command keeps the frame on display. -/
theorem publishedFrameHoldsNoDraw : Obligations.PublishedFrameHoldsNoDraw := by
  intro i s t hready hassembled hexec hframe
  rw [← bufferSizeOf_eq] at hframe
  by_cases hswap : i = .display ∧ s.stride = s.bufferSize
  · obtain ⟨rfl, hfull⟩ := hswap
    exact hassembled.frameWritten_of_swap hready.2 hfull hexec
  · obtain hsel | ⟨hi, -, hfull, -⟩ := (exec_effect hexec).dispSel_cases
    · exact (hframe.resolve_right hswap).of_no_swap hready hexec hsel
    · exact absurd ⟨hi, hfull⟩ hswap

end Sys2Proof.Machine
end

section
/-! The frame a run assembles (43_assembly.md R89, 44_swap.md R92, R93): without a DISPLAY, STRIDE grows by what each
COMMIT commits; and two runs of the same commands keep STATE and every byte below STRIDE + PENDING alike, whatever the
banks held before. -/

namespace Sys2Proof.Machine

/-! ### The committed sum -/

theorem committedBy_cons {i : Instr} {is : List Instr} {s t : State} (h : exec i s = .next t) :
    committedBy (i :: is) s = (if i = .commit then s.pending else 0) + committedBy is t := by
  simp only [committedBy, h]

/-- A command that is no DISPLAY adds to STRIDE the PENDING that it commits (10_state.md R20). -/
theorem State.Ready.stride_after_exec {s t : State} {i : Instr} (h : s.Ready) (hexec : exec i s = .next t)
    (hdisplay : i ≠ .display) : t.stride = s.stride + if i = .commit then s.pending else 0 := by
  by_cases hcommit : i = .commit
  · subst hcommit
    exact (h.commit_cursor hexec).1
  · rw [if_neg hcommit, Nat.add_zero, (exec_effect hexec).keepsStride hcommit hdisplay]

/-- Along a run without a DISPLAY, STRIDE grows by the committed sum (43_assembly.md R89). -/
theorem State.Ready.stride_after_run {is : List Instr} {s t : State} (h : s.Ready)
    (hdisplay : ∀ i ∈ is, i ≠ .display) (hrun : runInstrs is s = .next t) :
    t.Ready ∧ t.geom = s.geom ∧ t.stride = s.stride + committedBy is s := by
  induction is generalizing s with
  | nil =>
    cases hrun
    exact ⟨h, rfl, rfl⟩
  | cons i is ih =>
    obtain ⟨hi, his⟩ := List.forall_mem_cons.1 hdisplay
    obtain ⟨u, hexec, hrest⟩ := runInstrs_cons_next hrun
    obtain ⟨ht, hgeom, hstride⟩ := ih (h.after_exec hexec) his hrest
    refine ⟨ht, hgeom.trans (h.geom_after_exec hexec), ?_⟩
    rw [hstride, h.stride_after_exec hexec hi, committedBy_cons hexec, Nat.add_assoc]

/-- Settles O41: STRIDE is the committed sum, the invariant bounds it, and DISPLAY compares it with bufferSize. -/
theorem displaySucceedsOnFullSum : Obligations.DisplaySucceedsOnFullSum := by
  intro is s t hready hstride _ hdisplay hrun
  obtain ⟨ht, hgeom, hsum⟩ := hready.stride_after_run hdisplay hrun
  rw [hstride, Nat.zero_add] at hsum
  rw [← hsum, ← hgeom]
  refine ⟨rfl, ?_, ?_⟩
  · rw [← bufferSizeOf_eq]
    exact (Nat.le_add_right _ _).trans ht.cursor
  · obtain ⟨-, hfull, hshort⟩ := displaySwapsFullFrame.2 t
    by_cases hall : t.stride = specBufferSize t.geom
    · obtain ⟨u, hexec, hresponds, hsel, hcleared, -⟩ := hfull ht.2 hall
      exact ⟨u, hexec, hcleared, fun _ => ⟨hresponds, hsel⟩, fun hless => absurd hall hless.ne⟩
    · obtain ⟨u, hexec, hresponds, hcleared, -, hstatus, -⟩ := hshort ht.2 hall
      exact ⟨u, hexec, hcleared, fun heq => absurd heq hall, fun _ => ⟨hresponds, hstatus 22 (by omega)⟩⟩

/-! ### Two assemblies that differ in old bytes alone -/

/-- Two states that agree on GEOM, STATE, BIT_ORDER and every byte below STRIDE + PENDING of the write bank. -/
structure SameAssembly (s s' : State) : Prop where
  geom : s'.geom = s.geom
  status : s'.status = s.status
  bitOrder : s'.bitOrder = s.bitOrder
  bytes : ∀ j < s.appendIndex, s'.byteAt s.writeBank j = s.byteAt s.writeBank j

/-- Whatever states the two outcomes reach hold the same assembly. -/
def AssembleAlike (a a' : Result) : Prop := ∀ t t', a = .next t → a' = .next t' → SameAssembly t t'

theorem assembleAlike_next {t t' : State} (h : SameAssembly t t') : AssembleAlike (.next t) (.next t') := by
  intro u u' hu hu'
  cases hu
  cases hu'
  exact h

/-- A check that comes out alike in both states leaves the branch it takes to be compared. -/
theorem assembleAlike_ite {p p' : Prop} [Decidable p] [Decidable p'] {a a' b b' : Result} (hp : p' ↔ p)
    (ha : p → AssembleAlike a a') (hb : ¬ p → AssembleAlike b b') :
    AssembleAlike (if p then a else b) (if p' then a' else b') := by
  by_cases h : p
  · rw [if_pos h, if_pos (hp.2 h)]
    exact ha h
  · rw [if_neg h, if_neg (mt hp.1 h)]
    exact hb h

namespace SameAssembly

variable {s s' : State} (h : SameAssembly s s')
include h

theorem writeBank : s'.writeBank = s.writeBank := writeBank_congr h.status

theorem bufferSize : s'.bufferSize = s.bufferSize := congrArg bufferSizeOf h.geom

theorem channelCount : s'.channelCount = s.channelCount := congrArg channelCountOf h.geom

theorem channelSize : s'.channelSize = s.channelSize := congrArg channelSizeOf h.geom

theorem pending : s'.pending = s.pending := congrArg pendingOf h.status

theorem appendIndex : s'.appendIndex = s.appendIndex := by
  rw [State.appendIndex, State.appendIndex, State.stride, State.pending, h.status]

/-! The updates of the state -/

theorem after_respond (d d' : Word) : SameAssembly (respond d s) (respond d' s') where
  geom := h.geom
  status := h.status
  bitOrder := h.bitOrder
  bytes j hj := (byteAt_respond ..).trans ((h.bytes j hj).trans (byteAt_respond ..).symm)

/-- A new STATE word that selects the same banks, with a cursor that does not rise. -/
theorem after_withStatus {w : Word} (hsel : dispSelOf w = dispSelOf s.status)
    (hle : strideOf w + pendingOf w ≤ s.appendIndex) : SameAssembly (s.withStatus w) (s'.withStatus w) where
  geom := h.geom
  status := rfl
  bitOrder := h.bitOrder
  bytes j hj := by
    rw [byteAt_withStatus, byteAt_withStatus, writeBank_withStatus, hsel]
    exact h.bytes j (hj.trans_le hle)

theorem after_raiseFault (c : FaultCode) : SameAssembly (raiseFault c s) (raiseFault c s') where
  geom := h.geom
  status := by rw [raiseFault_status, raiseFault_status, h.status]
  bitOrder := h.bitOrder
  bytes j hj := by
    have hbank : (raiseFault c s).writeBank = s.writeBank := by simp [State.writeBank]
    rw [byteAt_raiseFault, byteAt_raiseFault, hbank]
    exact h.bytes j (by simpa using hj)

/-- The bytes that an append counts in PENDING are the bytes it writes, the same in both states. -/
theorem after_appendRun (v : Byte) (n : Nat) : SameAssembly (s.appendRun v n) (s'.appendRun v n) where
  geom := by rw [appendRun_geom, appendRun_geom, h.geom]
  status := by rw [appendRun_status, appendRun_status, h.status, h.pending]
  bitOrder := by rw [appendRun_bitOrder, appendRun_bitOrder, h.bitOrder]
  bytes j hj := by
    have hle := hj.trans_le (appendRun_appendIndex_le s v n)
    rw [appendRun_writeBank, byteAt_appendRun, byteAt_appendRun, h.writeBank, h.appendIndex]
    split
    · rfl
    · next hout => exact h.bytes j (Nat.lt_of_not_le fun hlo => hout ⟨rfl, hlo, hle⟩)

/-- A WRCH changes an assembled byte alike in both states, and its bytes further up are not assembled yet. -/
theorem after_pack (x y z : BitVec 3) (c v : Nat) : SameAssembly (s.pack x y z c v) (s'.pack x y z c v) where
  geom := by rw [pack_geom, pack_geom, h.geom]
  status := by rw [pack_status, pack_status, h.status]
  bitOrder := by rw [pack_bitOrder, pack_bitOrder, h.bitOrder]
  bytes j hj := by
    have hbyte := chByte_congr h.geom x y z c
    have hindex : j < s.appendIndex := by simpa using hj
    rw [writeBank_congr (pack_status ..)]
    by_cases hj' : s.chByte x y z c = j
    · subst hj'
      have hpacked := byteAt_pack_same s' x y z c v
      rw [h.writeBank, hbyte] at hpacked
      rw [byteAt_pack_same, hpacked, h.bytes _ hindex, chShift_congr h.geom h.bitOrder, h.channelSize]
    · rw [byteAt_pack_other fun hw => hj' hw.2, byteAt_pack_other fun hw => hj' (hbyte.symm.trans hw.2)]
      exact h.bytes j hindex

/-! The outcomes of the commands -/

theorem alike_done (d d' : Word) : AssembleAlike (done d s) (done d' s') := assembleAlike_next (h.after_respond d d')

theorem alike_trap (c : FaultCode) : AssembleAlike (trap c s) (trap c s') := assembleAlike_next (h.after_raiseFault c)

theorem alike_whenConfigured {a a' : Result} (hbody : AssembleAlike a a') :
    AssembleAlike (whenConfigured s a) (whenConfigured s' a') :=
  assembleAlike_ite (by rw [h.status]) (fun _ => hbody) fun _ => h.alike_trap .nocfg

theorem alike_whenInRange {x y z : BitVec 3} {a a' : Result} (hbody : s.InCube x y z → AssembleAlike a a') :
    AssembleAlike (whenInRange x y z s a) (whenInRange x y z s' a') :=
  assembleAlike_ite (by rw [h.geom]) (fun hr => hbody ((inRange_iff _ _ _ _).1 hr)) fun _ => h.alike_trap .coord

/-- A byte that is read, in whichever bank, shows in the response alone. -/
theorem alike_bankRead {b b' : BankId} {j j' : Nat} {value value' : Byte → Word} :
    AssembleAlike (bankRead b j s fun byte => done (value byte) s)
      (bankRead b' j' s' fun byte => done (value' byte) s') := fun t t' ht ht' =>
  h.alike_done _ _ t t' (bankRead_next ht).2 (bankRead_next ht').2

/-- A query of a channel makes the same checks in both states, and what it reads shows in the response alone. -/
theorem alike_channelQuery {neutral neutral' : Prop} [Decidable neutral] [Decidable neutral']
    (hneutral : neutral' ↔ neutral) {b b' : BankId} {x y z : BitVec 3} {c : Nat} {value value' : Nat → Nat} :
    AssembleAlike (channelQuery neutral b x y z c value s) (channelQuery neutral' b' x y z c value' s') :=
  h.alike_whenConfigured <| assembleAlike_ite hneutral (fun _ => h.alike_done 0 0) fun _ =>
    h.alike_whenInRange fun _ => h.alike_bankRead

theorem alike_wrch (x y z : BitVec 3) (ch : BitVec 2) (value : BitVec 8) (hready : s.Ready) (hready' : s'.Ready) :
    AssembleAlike (exec (.wrch x y z ch value) s) (exec (.wrch x y z ch value) s') := by
  by_cases hch : ch.toNat < s.channelCount
  · have hch' := hch.trans_eq h.channelCount.symm
    have hcube' : s'.InCube x y z ↔ s.InCube x y z := by rw [State.InCube, h.geom]
    by_cases hcube : s.InCube x y z
    · by_cases hv : value.toNat ≤ maxValue s.channelSize
      · rw [exec_wrch_eq_pack hready hch hcube hv,
          exec_wrch_eq_pack hready' hch' (hcube'.2 hcube) (by rwa [h.channelSize])]
        exact (h.after_pack x y z ch.toNat value.toNat).alike_done 0 0
      · rw [exec_wrch_value hready.2 hch hcube (by omega),
          exec_wrch_value hready'.2 hch' (hcube'.2 hcube) (by rw [h.channelSize]; omega)]
        exact h.alike_trap .value
    · rw [exec_wrch_coord hready.2 hch hcube, exec_wrch_coord hready'.2 hch' (mt hcube'.1 hcube)]
      exact h.alike_trap .coord
  · have hneutral := Nat.le_of_not_lt hch
    rw [exec_wrch_neutral hready.2 hneutral, exec_wrch_neutral hready'.2 (h.channelCount.trans_le hneutral)]
    exact h.alike_done 0 0

theorem alike_appb (byte : BitVec 8) (hready : s.Ready) (hready' : s'.Ready) :
    AssembleAlike (exec (.appb byte) s) (exec (.appb byte) s') := by
  by_cases hroom : s.appendIndex < s.bufferSize
  · rw [exec_appb_eq_appendRun hready hroom,
      exec_appb_eq_appendRun hready' (by rwa [h.appendIndex, h.bufferSize])]
    exact (h.after_appendRun byte 1).alike_done 1 1
  · have hfull := Nat.le_of_not_lt hroom
    rw [exec_appb_full hready.2 hfull, exec_appb_full hready'.2 (by rwa [h.appendIndex, h.bufferSize])]
    exact h.alike_done 0 0

theorem alike_appr (byte run : BitVec 8) (hready : s.Ready) (hready' : s'.Ready) :
    AssembleAlike (exec (.appr byte run) s) (exec (.appr byte run) s') := by
  have hlength : s'.runLength run = s.runLength run := by
    rw [State.runLength, State.runLength, h.bufferSize, h.appendIndex]
  rw [exec_appr_eq_appendRun hready, exec_appr_eq_appendRun hready', hlength]
  exact (h.after_appendRun byte (s.runLength run)).alike_done _ _

theorem alike_commit (hready : s.Ready) (hready' : s'.Ready) :
    AssembleAlike (exec .commit s) (exec .commit s') := by
  rw [exec_commit_fits hready.2 hready.cursor, exec_commit_fits hready'.2 hready'.cursor, h.status, h.appendIndex]
  refine (h.after_withStatus ?_ ?_).alike_done 1 1
  · simp
  · simpa using Nat.mod_le _ 2048

theorem alike_discard (hready : s.Ready) (hready' : s'.Ready) :
    AssembleAlike (exec .discard s) (exec .discard s') := by
  rw [exec_discard_drops hready.2, exec_discard_drops hready'.2, h.status]
  exact (h.after_withStatus (by simp) (by simp)).alike_done 0 0

/-- A byte at or above STRIDE + PENDING shows in no command's assembly and in no STATE word (44_swap.md R92). -/
theorem exec_alike (hready : s.Ready) (hready' : s'.Ready) {i : Instr} (hdisplay : i ≠ .display) :
    AssembleAlike (exec i s) (exec i s') := by
  cases i with
  | nop => exact h.alike_done 0 0
  | config side count size =>
    rw [exec_config_reconfig hready.2, exec_config_reconfig hready'.2]
    exact h.alike_trap .reconfig
  | rdreg reg =>
    exact assembleAlike_ite Iff.rfl (fun _ => h.alike_done _ _) fun _ =>
      assembleAlike_ite Iff.rfl (fun _ => h.alike_done _ _) fun _ =>
        assembleAlike_ite Iff.rfl (fun _ => h.alike_done _ _) fun _ => h.alike_trap .illegal
  | rdch sel x y z ch =>
    rw [exec_rdch_eq, exec_rdch_eq]
    exact h.alike_channelQuery (by rw [h.channelCount])
  | gcb x y z ch =>
    rw [exec_gcb_eq, exec_gcb_eq]
    exact h.alike_channelQuery (by rw [h.channelCount])
  | gcs x y z ch =>
    rw [exec_gcs_eq, exec_gcs_eq]
    exact h.alike_channelQuery (by rw [h.channelCount, h.channelSize])
  | gvb x y z =>
    rw [exec_gvb_eq, exec_gvb_eq]
    exact h.alike_channelQuery (by rw [h.channelCount])
  | gvs x y z =>
    rw [exec_gvs_eq, exec_gvs_eq]
    exact h.alike_channelQuery (by rw [h.channelCount, h.channelSize])
  | wrch x y z ch value => exact h.alike_wrch x y z ch value hready hready'
  | rdb sel idx =>
    exact h.alike_whenConfigured <| assembleAlike_ite (by rw [h.bufferSize]) (fun _ => h.alike_trap .range) fun _ =>
      h.alike_bankRead
  | appb byte => exact h.alike_appb byte hready hready'
  | appr byte run => exact h.alike_appr byte run hready hready'
  | commit => exact h.alike_commit hready hready'
  | discard => exact h.alike_discard hready hready'
  | display => exact absurd rfl hdisplay

end SameAssembly

/-- Two runs of the same commands without a DISPLAY hold the same assembly to their ends. -/
theorem SameAssembly.after_run {is : List Instr} {s s' t t' : State} (h : SameAssembly s s') (hready : s.Ready)
    (hready' : s'.Ready) (hdisplay : ∀ i ∈ is, i ≠ .display) (hrun : runInstrs is s = .next t)
    (hrun' : runInstrs is s' = .next t') : SameAssembly t t' := by
  induction is generalizing s s' with
  | nil => exact assembleAlike_next h t t' hrun hrun'
  | cons i is ih =>
    obtain ⟨hi, his⟩ := List.forall_mem_cons.1 hdisplay
    obtain ⟨u, hexec, hrest⟩ := runInstrs_cons_next hrun
    obtain ⟨u', hexec', hrest'⟩ := runInstrs_cons_next hrun'
    have hstep := h.exec_alike hready hready' hi u u' hexec hexec'
    exact ih hstep (hready.after_exec hexec) (hready'.after_exec hexec') his hrest hrest'

/-- Settles O42: an empty assembly is the same whatever the banks hold, and a full one is the whole frame. -/
theorem frameIndependentOfOldBytes : Obligations.FrameIndependentOfOldBytes := by
  intro is s s' t t' hready hready' hgeom hstatus horder hstride hpending hdisplay hrun hrun'
  have hempty : s.appendIndex = 0 := Nat.add_eq_zero_iff.2 ⟨hstride, hpending⟩
  have hstart : SameAssembly s s' :=
    ⟨hgeom, hstatus, horder, fun j hj => absurd (hj.trans_eq hempty) (Nat.not_lt_zero j)⟩
  have hend := hstart.after_run hready hready' hdisplay hrun hrun'
  refine ⟨hend.status, fun hfull j hj => ?_⟩
  rw [← writeBank_eq, ← writeBank_eq, hend.writeBank]
  exact hend.bytes j ((hj.trans_eq hfull.symm).trans_le (Nat.le_add_right _ _))

end Sys2Proof.Machine
end

section
/-! The exceptions (60_exceptions.md R94, R95): a word that answers a fault response has raised that fault and done nothing
else, and the block goes on from there. -/

namespace Sys2Proof.Machine

/-- The fault codes are 1 to 7 (60_exceptions.md R94). -/
theorem FaultCode.number_bounds (c : FaultCode) : 1 ≤ c.number ∧ c.number ≤ 7 := by cases c <;> decide

/-- An effect whose response is a fault is a raised fault, and the response is that fault's own. -/
theorem Effect.raised_of_fault {s t : State} {i : Instr} {r : Response} (h : Effect s i t)
    (hr : t.responses = s.responses ++ [r]) (hfault : r.fault = true) :
    ∃ c, t = raiseFault c s ∧ r = { fault := true, code := c.code, data := 0 } := by
  rcases h.faulted_or_responds with ⟨c, rfl⟩ | ⟨⟨d, hd⟩, -⟩
  · exact ⟨c, rfl, response_unique (raiseFault_responses c s) hr⟩
  · cases response_unique hd hr
    cases hfault

/-- Settles O24: the word raised a fault, which keeps the invariant, and from there no word stops the machine. -/
theorem faultHasNoOtherEffect : Obligations.FaultHasNoOtherEffect := by
  intro w s t r hword hr hfault
  obtain ⟨i, heffect⟩ := executeWord_effect hword
  obtain ⟨c, rfl, rfl⟩ := heffect.raised_of_fault hr hfault
  refine ⟨?_, fun hinv w' => ?_⟩
  · rw [c.code_toNat]
    exact ⟨c.number_bounds.1, c.number_bounds.2, rfl, raiseFault_faults c s⟩
  · obtain ⟨u, hu, -⟩ := executeWord_completes w' (hinv.after_raiseFault c)
    exact ⟨u, hu⟩

end Sys2Proof.Machine
end

section
/-! A frame of one value (70_reset_and_hazards.md R108): FILL appends its value up to bufferSize, COMMIT counts the
assembled bytes in STRIDE, and DISPLAY shows the write bank as it stands. -/

namespace Sys2Proof.Machine

/-! ### FILL -/

/-- The RUN operands of the APPRs that FILL expands to (30_encoding.md R60). -/
def fillRuns (n : Nat) : List (BitVec 8) :=
  List.replicate (n / 255) 255 ++ (if n % 255 = 0 then [] else [BitVec.ofNat 8 (n % 255)])

theorem fill_eq_map (v : Byte) (n : Nat) : fill v n = (fillRuns n).map (.appr v) := by
  rw [fill, fillRuns, List.map_append, List.map_replicate, apply_ite (List.map _), List.map_nil, List.map_singleton]

/-- The runs of FILL v, n are n copies of v together: 255 at a time, and then the remainder. -/
theorem flatMap_fillRuns (v : Byte) (n : Nat) :
    ((fillRuns n).flatMap fun run => List.replicate run.toNat v) = List.replicate n v := by
  have hrest : ((if n % 255 = 0 then [] else [BitVec.ofNat 8 (n % 255)]).flatMap fun run =>
      List.replicate run.toNat v) = List.replicate (n % 255) v := by
    split
    · rw [‹n % 255 = 0›]
      rfl
    · have hmod : n % 255 % 2 ^ 8 = n % 255 := Nat.mod_eq_of_lt (by omega)
      rw [List.flatMap_singleton, BitVec.toNat_ofNat, hmod]
  calc
    _ = List.replicate (n / 255 * 255) v ++ List.replicate (n % 255) v := by
      rw [fillRuns, List.flatMap_append, hrest, List.flatMap_replicate, ← List.flatten_replicate_replicate]
      rfl
    _ = List.replicate n v := by rw [List.replicate_append_replicate, Nat.div_add_mod']

/-- FILL v, n appends n copies of v, as far as they fit. -/
theorem State.Ready.fill_appends {s : State} (h : s.Ready) (v : Byte) (n : Nat) :
    ∃ t, runInstrs (fill v n) s = .next t ∧ Appends s t (List.replicate n v) := by
  rw [fill_eq_map, ← flatMap_fillRuns]
  refine h.runInstrs_appends (fun run t ht => ?_) (fillRuns n)
  obtain ⟨u, hexec, -, happends⟩ := ht.appr_appends v run
  exact ⟨u, hexec, happends⟩

/-! ### Runs one after another -/

theorem runInstrs_append {is js : List Instr} {s t : State} (h : runInstrs is s = .next t) :
    runInstrs (is ++ js) s = runInstrs js t := by
  induction is generalizing s with
  | nil =>
    cases h
    rfl
  | cons i is ih =>
    obtain ⟨u, hexec, hrest⟩ := runInstrs_cons_next h
    exact (runInstrs_cons hexec).trans (ih hrest)

/-- A ready state stays ready along every run. -/
theorem State.Ready.after_run {is : List Instr} {s t : State} (h : s.Ready) (hrun : runInstrs is s = .next t) :
    t.Ready := by
  induction is generalizing s with
  | nil =>
    cases hrun
    exact h
  | cons i is ih =>
    obtain ⟨u, hexec, hrest⟩ := runInstrs_cons_next hrun
    exact ih (h.after_exec hexec) hrest

/-! ### COMMIT, DISPLAY -/

/-- COMMIT of a full assembly makes STRIDE bufferSize and changes neither a bank nor its role (43_assembly.md R87). -/
theorem State.Ready.commit_fills {s : State} (h : s.Ready) (hfull : s.appendIndex = s.bufferSize) :
    Completes .commit s fun t => t.stride = t.bufferSize ∧ t.writeBank = s.writeBank ∧ SameBanks s t := by
  have hexec := exec_commit_fits h.2 h.cursor
  obtain ⟨hbanks, -, -⟩ := respond_withStatus_frame 1 (setPending (setStride s.status s.appendIndex) 0) s
  refine ⟨_, hexec, (h.commit_cursor hexec).1.trans hfull, ?_, hbanks⟩
  rw [State.writeBank, State.writeBank, respond_status, withStatus_status, dispSelOf_setPending, dispSelOf_setStride]

/-- COMMIT and DISPLAY publish an assembly that reaches bufferSize (43_assembly.md R87, 44_swap.md R90). -/
theorem State.Ready.commit_display_publishes {s : State} (h : s.Ready) (hfull : s.appendIndex = s.bufferSize) :
    ∃ t, runInstrs [.commit, .display] s = .next t ∧ t.DB = s.WB ∧ (∀ j, t.byteAt t.DB j = s.byteAt s.WB j) ∧
      t.responses.getLast? = some { fault := false, code := 0, data := 1 } := by
  obtain ⟨u, hcommit, hstride, hrole, hbanks⟩ := h.commit_fills hfull
  have hu : u.Ready := h.after_exec hcommit
  obtain ⟨t, hdisplay, hresponds, -⟩ := hu.display_swaps hstride
  obtain ⟨hbank, -, hbytes, -⟩ := swapExchangesTheBanks u t hu.2 hdisplay hresponds
  rw [writeBank_eq, writeBank_eq] at hrole
  refine ⟨t, (runInstrs_cons hcommit).trans (runInstrs_cons hdisplay), hbank.trans hrole, fun j => ?_, ?_⟩
  · rw [hbytes, hrole, hbanks]
  · rw [hresponds, List.getLast?_concat]

/-- Settles O44: FILL brings STRIDE + PENDING from 0 to bufferSize with v in every byte, and COMMIT and DISPLAY publish
what is assembled. -/
theorem fillCommitDisplayPublishes : Obligations.FillCommitDisplayPublishes := by
  intro v s hready hstride hpending
  obtain ⟨t, hfill, happends⟩ := hready.fill_appends v s.bufferSize
  have hempty : s.appendIndex = 0 := by rw [State.appendIndex, hstride, hpending]
  have hall : min (List.replicate s.bufferSize v).length (s.bufferSize - s.appendIndex) = s.bufferSize := by
    rw [List.length_replicate, hempty, Nat.sub_zero, Nat.min_self]
  have hfull : t.appendIndex = t.bufferSize := by
    rw [happends.appendIndex, happends.bufferSize, hall, hempty, Nat.zero_add]
  have hwritten := happends.written
  rw [hall, hempty] at hwritten
  obtain ⟨u, hpublish, hbank, hbytes, hresponse⟩ := (hready.after_run hfill).commit_display_publishes hfull
  have hrole : t.WB = s.WB := by rw [← writeBank_eq, ← writeBank_eq, happends.writeBank]
  refine ⟨u, (runInstrs_append hfill).trans hpublish, hbank.trans hrole, fun j hj => ?_, hresponse⟩
  have hj' : j < s.bufferSize := hj.trans_eq (bufferSizeOf_eq s.geom).symm
  have hbyte := hwritten j hj'
  rw [Nat.zero_add, List.getD_replicate _ hj'] at hbyte
  rw [hbytes, hrole, ← writeBank_eq, hbyte]

end Sys2Proof.Machine
end
